-- ==== Sys2Proof/Word.lean ====
section
/-! DEFINITION. The word types and names of the unit: register and control indices, the four operand formats. -/

namespace Sys2Proof

/-- A 5-bit register index 0-31 (R4, R82): the index of a slot `f[i]`, or of a 32-bit register. -/
abbrev RegIx := BitVec 5

/-- A 5-bit control index 0-31 (R39): a space of its own, disjoint from the register slots (R61). -/
abbrev CtlIx := BitVec 5

/-- 32 bits: a single pattern, a 32-bit integer, an instruction word, a control register. -/
abbrev Word32 := BitVec 32

/-- 64 bits: a register slot, a double pattern, a 64-bit integer. -/
abbrev Word64 := BitVec 64

/-- The format selector `fmt`, an input of every `execute` transaction (R84). -/
inductive Fmt where
  | S  -- single-precision float
  | D  -- double-precision float
  | W  -- 32-bit integer
  | L  -- 64-bit integer
deriving DecidableEq, Repr

end Sys2Proof
end

