-- ==== Sys2Proof/Config.lean ====
section
/-! DEFINITION. What an implementation fixes (the parameters of R5-R8) and the free values (`opaque`, no body). -/

namespace Sys2Proof

/-- The values of parameter `SINGLE_VIEW` (R5): which 32 bits the single view of a register is. -/
inductive SingleView where
  /-- The single view goes through the 32-bit access, so it follows the addressing mode (the default). -/
  | modeDependent
  /-- The single view is always bits 31:0 of the slot the index names. -/
  | directLow
deriving DecidableEq, Repr

/-- The two parameters of the unit that are plain data, `SINGLE_VIEW` (R5) and `PC_WIDTH` (R8).
A `State` carries them, and no step changes them (assumptions 3 and 4). -/
structure Params where
  singleView : SingleView
  pcWidth    : Nat
deriving DecidableEq, Repr

/-- The spec's defaults: `SINGLE_VIEW = ModeDependent` (R5) and `PC_WIDTH = 32` (R8). -/
def Params.default : Params := { singleView := .modeDependent, pcWidth := 32 }

/-- The operation tags that `NAN_POLICY` receives (R114): the mnemonic of the instruction whose result is a NaN. -/
inductive FpOp where
  | addS | subS | mulS | divS | sqrtS
  | addD | subD | mulD | divD | sqrtD
  | cvtSD | cvtDS
deriving DecidableEq, Repr

/-- A binary32 NaN as data: a sign, and one less than its nonzero 23-bit fraction.
Every NaN of the format is one of these, and nothing else is. -/
structure NanS where
  sign : Bool
  fracPred : Fin 8388607
deriving DecidableEq, Repr, Inhabited

/-- A binary64 NaN as data: a sign, and one less than its nonzero 52-bit fraction. -/
structure NanD where
  sign : Bool
  fracPred : Fin 4503599627370495
deriving DecidableEq, Repr, Inhabited

/-- `NAN_POLICY` for single results (R6): a free choice of a NaN for each operation and operand patterns.
An operand pattern is given in 64 bits, zero-extended; the operation tag says its format.
OPEN in the spec (D9, I1); assumption 5. -/
opaque Config.nanChoiceS : FpOp → List Word64 → NanS

/-- `NAN_POLICY` for double results (R6), with operands as in `Config.nanChoiceS`. -/
opaque Config.nanChoiceD : FpOp → List Word64 → NanD

/-- `CVT_INVALID` (R7): the integer result of a conversion whose operand does not fit, a free value for
each draw, source format, destination width and source pattern (D11: a draw per execution). Assumption 6. -/
opaque Config.cvtInvalid (draw : Nat) (srcFmt : Fmt) (dstWidth : Nat) {w : Nat} (srcBits : BitVec w) :
  BitVec dstWidth

end Sys2Proof
end

