-- ==== Sys2Proof/Machine/Interface.lean ====
section
/-! DEFINITION. The unit's interface as data: the transactions a caller invokes (R51), the values they return,
and the events of the diagnostic output (R194). -/

namespace Sys2Proof.Machine

/-- One interface transaction with its inputs (R51). Each is atomic (R15, R67) and always completes (R199). -/
inductive Transaction where
  /-- `execute(fmt, instr, pc_in)`: dispatch and run one instruction word (R85). -/
  | execute (fmt : Fmt) (instr : Word32) (pcIn : Nat)
  /-- `read32(i)` (R28, R29). -/
  | read32 (i : RegIx)
  /-- `write32(i, v)` (R30, R31). -/
  | write32 (i : RegIx) (v : Word32)
  /-- `read64(i)` (R26). -/
  | read64 (i : RegIx)
  /-- `write64(i, v)` (R27). -/
  | write64 (i : RegIx) (v : Word64)
  /-- `readCtl(c)` (R40, R41). -/
  | readCtl (c : CtlIx)
  /-- `writeCtl(c, v)` (R42-R44). -/
  | writeCtl (c : CtlIx) (v : Word32)
  /-- `setAddressingMode(m)` (R38): `true` is Full mode. -/
  | setAddressingMode (m : Bool)
  /-- `reset()` (R220). -/
  | reset
deriving DecidableEq, Repr

/-- A value that a read transaction returned to the caller, with its width (R51). -/
inductive Reply where
  /-- What `read32` or `readCtl` returned. -/
  | bits32 (v : Word32)
  /-- What `read64` returned. -/
  | bits64 (v : Word64)
deriving DecidableEq, Repr

/-- An event of the diagnostic output (R194). Message text is not part of the interface. -/
inductive Diag where
  /-- An undefined entry was dispatched (R190): the raw word, and `(pc_in - 4) mod 2^PC_WIDTH`. -/
  | unknownOpcode (instr : Word32) (addr : Nat)
  /-- A control index other than 31 was read (R41). -/
  | invalidControlRead (c : CtlIx)
  /-- A control index other than 31 was written (R44). -/
  | invalidControlWrite (c : CtlIx) (v : Word32)
  /-- A status write had a bit of `0x01000F83` set (R43). -/
  | unimplementedStatusBits (v : Word32)
deriving DecidableEq, Repr

/-- The two severities of diagnostics (R194). -/
inductive Severity where
  | critical
  | warning
deriving DecidableEq, Repr

/-- The severity of an event (R194). -/
def Diag.severity : Diag → Severity
  | .unknownOpcode _ _ => .critical
  | .invalidControlRead _ => .warning
  | .invalidControlWrite _ _ => .warning
  | .unimplementedStatusBits _ => .warning

end Sys2Proof.Machine
end

