-- ==== Sys2Proof/Syntax.lean ====
section
/-! DEFINITION. The 26 instructions, one constructor per row of the opcode table, in the table's order.
Constructors carry the source's handler names (R86-R89): `cvtDS` is cvt.d.s, to double from single.
A field the unit does not read (`ft` of a unary instruction or a conversion, R91) is no field here. -/

namespace Sys2Proof

/-- One instruction with its register fields (R82): destination `fd`, source A `fs`, source B `ft`. -/
inductive Instr where
  -- format S (R86)
  | addS (fd fs ft : RegIx)
  | subS (fd fs ft : RegIx)
  | mulS (fd fs ft : RegIx)
  | divS (fd fs ft : RegIx)
  | sqrtS (fd fs : RegIx)
  | absS (fd fs : RegIx)
  | movS (fd fs : RegIx)
  | negS (fd fs : RegIx)
  | cvtDS (fd fs : RegIx)
  | cvtWS (fd fs : RegIx)
  | cvtLS (fd fs : RegIx)
  -- format D (R87)
  | addD (fd fs ft : RegIx)
  | subD (fd fs ft : RegIx)
  | mulD (fd fs ft : RegIx)
  | divD (fd fs ft : RegIx)
  | sqrtD (fd fs : RegIx)
  | absD (fd fs : RegIx)
  | movD (fd fs : RegIx)
  | negD (fd fs : RegIx)
  | cvtSD (fd fs : RegIx)
  | cvtWD (fd fs : RegIx)
  | cvtLD (fd fs : RegIx)
  -- format W (R88)
  | cvtSW (fd fs : RegIx)
  | cvtDW (fd fs : RegIx)
  -- format L (R89)
  | cvtSL (fd fs : RegIx)
  | cvtDL (fd fs : RegIx)
deriving DecidableEq, Repr

end Sys2Proof
end

