-- ==== Sys2Proof/WellFormed.lean ====
section
/-! DEFINITION. Well-formedness of what a caller hands to the unit.
An instruction needs no check: its register fields are 5-bit vectors (R82), so every `Instr` is well formed.
The same holds of register and control indices, of values and of the format selector (R84, R51).
The one input whose width is a parameter is `pc_in` (R8), and it is checked here. -/

namespace Sys2Proof

/-- `pc_in` is a value of `PC_WIDTH` bits (R8, R51). -/
def pcFits (p : Params) (pcIn : Nat) : Bool := decide (pcIn < 2 ^ p.pcWidth)

/-- A transaction is one of R51's: the widths of its inputs are right. The unit itself makes no check
(`Machine.diagAddress` takes `pc_in` modulo `2^PC_WIDTH`). -/
def Machine.Transaction.wf (p : Params) : Machine.Transaction → Bool
  | .execute _ _ pcIn => pcFits p pcIn
  | .read32 _ => true
  | .write32 _ _ => true
  | .read64 _ => true
  | .write64 _ _ => true
  | .readCtl _ => true
  | .writeCtl _ _ => true
  | .setAddressingMode _ => true
  | .reset => true

end Sys2Proof
end

