-- ==== Sys2Proof/Decode.lean ====
section
/-! DEFINITION. Decoding, by the unit (format selector and word, R80-R91) and of whole words (the caller's role,
R95), total on all words; and after it the encoder, written from the same tables. -/

namespace Sys2Proof

/-! ## The fields of a word (R81, R82) -/

/-- `instr[5:0]`, the function field (R81). -/
def functField (w : Word32) : BitVec 6 := w.extractLsb' 0 6
/-- `instr[10:6]`, the destination (R82). -/
def fdField (w : Word32) : RegIx := w.extractLsb' 6 5
/-- `instr[15:11]`, source A (R82). -/
def fsField (w : Word32) : RegIx := w.extractLsb' 11 5
/-- `instr[20:16]`, source B (R82). -/
def ftField (w : Word32) : RegIx := w.extractLsb' 16 5
/-- `instr[25:21]`, the MIPS format code: read by the caller (R95), never by the unit (R83). -/
def fmtCodeField (w : Word32) : BitVec 5 := w.extractLsb' 21 5
/-- `instr[31:26]`, the MIPS major opcode: read by the caller (R95), never by the unit (R83). -/
def majorField (w : Word32) : BitVec 6 := w.extractLsb' 26 6

/-! ## The four dispatch tables (R86-R89) -/

/-- Table S (R86). -/
def tableS (funct : BitVec 6) (fd fs ft : RegIx) : Option Instr :=
  match funct with
  | 0x00#6 => some (.addS fd fs ft)
  | 0x01#6 => some (.subS fd fs ft)
  | 0x02#6 => some (.mulS fd fs ft)
  | 0x03#6 => some (.divS fd fs ft)
  | 0x04#6 => some (.sqrtS fd fs)
  | 0x05#6 => some (.absS fd fs)
  | 0x06#6 => some (.movS fd fs)
  | 0x07#6 => some (.negS fd fs)
  | 0x21#6 => some (.cvtDS fd fs)
  | 0x24#6 => some (.cvtWS fd fs)
  | 0x25#6 => some (.cvtLS fd fs)
  | _ => none

/-- Table D (R87). -/
def tableD (funct : BitVec 6) (fd fs ft : RegIx) : Option Instr :=
  match funct with
  | 0x00#6 => some (.addD fd fs ft)
  | 0x01#6 => some (.subD fd fs ft)
  | 0x02#6 => some (.mulD fd fs ft)
  | 0x03#6 => some (.divD fd fs ft)
  | 0x04#6 => some (.sqrtD fd fs)
  | 0x05#6 => some (.absD fd fs)
  | 0x06#6 => some (.movD fd fs)
  | 0x07#6 => some (.negD fd fs)
  | 0x20#6 => some (.cvtSD fd fs)
  | 0x24#6 => some (.cvtWD fd fs)
  | 0x25#6 => some (.cvtLD fd fs)
  | _ => none

/-- Table W (R88). -/
def tableW (funct : BitVec 6) (fd fs : RegIx) : Option Instr :=
  match funct with
  | 0x20#6 => some (.cvtSW fd fs)
  | 0x21#6 => some (.cvtDW fd fs)
  | _ => none

/-- Table L (R89). -/
def tableL (funct : BitVec 6) (fd fs : RegIx) : Option Instr :=
  match funct with
  | 0x20#6 => some (.cvtSL fd fs)
  | 0x21#6 => some (.cvtDL fd fs)
  | _ => none

/-- The entry of the table of `fmt` at `funct`, with the register fields filled in; `none` is the
unknown-opcode handler (R85, R90). -/
def tableEntry (fmt : Fmt) (funct : BitVec 6) (fd fs ft : RegIx) : Option Instr :=
  match fmt with
  | .S => tableS funct fd fs ft
  | .D => tableD funct fd fs ft
  | .W => tableW funct fd fs
  | .L => tableL funct fd fs

/-- The unit's dispatch (R85): the instruction that `execute(fmt, w, ·)` runs, `none` for an undefined
entry. Bits 31:21 are not read (R83), no reserved field is checked (R91). -/
def unitDecode (fmt : Fmt) (w : Word32) : Option Instr :=
  tableEntry fmt (functField w) (fdField w) (fsField w) (ftField w)

/-! ## Whole words (R95) -/

/-- Why a whole word is no FP computational instruction. -/
inductive DecodeError where
  /-- `instr[31:26]` is not COP1 (R95): not a word of this unit. -/
  | notCop1 (major : BitVec 6)
  /-- `instr[25:21]` is none of 16, 17, 20, 21 (R84): the caller's own instruction (MFC1, BC1 and others, D6). -/
  | notComputational (fmtCode : BitVec 5)
  /-- An undefined entry of a dispatch table (R90). -/
  | unknownOpcode (fmt : Fmt) (funct : BitVec 6)
deriving DecidableEq, Repr

/-- The format a MIPS fmt code stands for (R84). -/
def fmtOfCode (c : BitVec 5) : Option Fmt :=
  match c with
  | 16#5 => some .S
  | 17#5 => some .D
  | 20#5 => some .W
  | 21#5 => some .L
  | _ => none

/-- The format selector that a caller derives from a whole word (R95). -/
def selectorOf (w : Word32) : Except DecodeError Fmt :=
  if majorField w = 0b010001#6 then
    match fmtOfCode (fmtCodeField w) with
    | some fmt => .ok fmt
    | none => .error (.notComputational (fmtCodeField w))
  else .error (.notCop1 (majorField w))

/-- Decoding of a whole word (R95): the caller's selector, then the unit's dispatch. -/
def decodeWord (w : Word32) : Except DecodeError Instr :=
  match selectorOf w with
  | .error e => .error e
  | .ok fmt =>
    match unitDecode fmt w with
    | some i => .ok i
    | none => .error (.unknownOpcode fmt (functField w))

/-- The word of an opcode-table row whose bits are `w`: `nbits` of them, the rest 0. -/
def tableWord (nbits w : Nat) : Word32 := BitVec.ofNat 32 (w % 2 ^ nbits)

/-- The instruction the decoder reads from a word numbered as the opcode table numbers it: bit 0 is the least
significant. All instructions are one 32-bit word (R80). -/
def decodeTableWord (nbits w : Nat) : Option Instr :=
  match decodeWord (tableWord nbits w) with
  | .ok i => some i
  | .error _ => none

/-! ## The encoder -/

/-- The format selector under which an instruction is dispatched (R86-R89). -/
def fmtOf : Instr → Fmt
  | .addS _ _ _ | .subS _ _ _ | .mulS _ _ _ | .divS _ _ _ => .S
  | .sqrtS _ _ | .absS _ _ | .movS _ _ | .negS _ _ => .S
  | .cvtDS _ _ | .cvtWS _ _ | .cvtLS _ _ => .S
  | .addD _ _ _ | .subD _ _ _ | .mulD _ _ _ | .divD _ _ _ => .D
  | .sqrtD _ _ | .absD _ _ | .movD _ _ | .negD _ _ => .D
  | .cvtSD _ _ | .cvtWD _ _ | .cvtLD _ _ => .D
  | .cvtSW _ _ | .cvtDW _ _ => .W
  | .cvtSL _ _ | .cvtDL _ _ => .L

/-- The function code of an instruction (R86-R89). -/
def functOf : Instr → BitVec 6
  | .addS _ _ _ | .addD _ _ _ => 0x00
  | .subS _ _ _ | .subD _ _ _ => 0x01
  | .mulS _ _ _ | .mulD _ _ _ => 0x02
  | .divS _ _ _ | .divD _ _ _ => 0x03
  | .sqrtS _ _ | .sqrtD _ _ => 0x04
  | .absS _ _ | .absD _ _ => 0x05
  | .movS _ _ | .movD _ _ => 0x06
  | .negS _ _ | .negD _ _ => 0x07
  | .cvtSD _ _ | .cvtSW _ _ | .cvtSL _ _ => 0x20
  | .cvtDS _ _ | .cvtDW _ _ | .cvtDL _ _ => 0x21
  | .cvtWS _ _ | .cvtWD _ _ => 0x24
  | .cvtLS _ _ | .cvtLD _ _ => 0x25

/-- The destination register of an instruction. -/
def fdOf : Instr → RegIx
  | .addS fd _ _ | .subS fd _ _ | .mulS fd _ _ | .divS fd _ _ => fd
  | .sqrtS fd _ | .absS fd _ | .movS fd _ | .negS fd _ => fd
  | .cvtDS fd _ | .cvtWS fd _ | .cvtLS fd _ => fd
  | .addD fd _ _ | .subD fd _ _ | .mulD fd _ _ | .divD fd _ _ => fd
  | .sqrtD fd _ | .absD fd _ | .movD fd _ | .negD fd _ => fd
  | .cvtSD fd _ | .cvtWD fd _ | .cvtLD fd _ => fd
  | .cvtSW fd _ | .cvtDW fd _ | .cvtSL fd _ | .cvtDL fd _ => fd

/-- The first source register of an instruction. -/
def fsOf : Instr → RegIx
  | .addS _ fs _ | .subS _ fs _ | .mulS _ fs _ | .divS _ fs _ => fs
  | .sqrtS _ fs | .absS _ fs | .movS _ fs | .negS _ fs => fs
  | .cvtDS _ fs | .cvtWS _ fs | .cvtLS _ fs => fs
  | .addD _ fs _ | .subD _ fs _ | .mulD _ fs _ | .divD _ fs _ => fs
  | .sqrtD _ fs | .absD _ fs | .movD _ fs | .negD _ fs => fs
  | .cvtSD _ fs | .cvtWD _ fs | .cvtLD _ fs => fs
  | .cvtSW _ fs | .cvtDW _ fs | .cvtSL _ fs | .cvtDL _ fs => fs

/-- The second source register of a binary instruction; 0, as MIPS requires, where `ft` is not read (R91). -/
def ftOf : Instr → RegIx
  | .addS _ _ ft | .subS _ _ ft | .mulS _ _ ft | .divS _ _ ft => ft
  | .addD _ _ ft | .subD _ _ ft | .mulD _ _ ft | .divD _ _ ft => ft
  | .sqrtS _ _ | .absS _ _ | .movS _ _ | .negS _ _ => 0
  | .cvtDS _ _ | .cvtWS _ _ | .cvtLS _ _ => 0
  | .sqrtD _ _ | .absD _ _ | .movD _ _ | .negD _ _ => 0
  | .cvtSD _ _ | .cvtWD _ _ | .cvtLD _ _ => 0
  | .cvtSW _ _ | .cvtDW _ _ | .cvtSL _ _ | .cvtDL _ _ => 0

/-- The MIPS fmt code of a format (R84). -/
def codeOfFmt : Fmt → BitVec 5
  | .S => 16
  | .D => 17
  | .W => 20
  | .L => 21

/-- A word from its fields (R95). -/
def assemble (fmtCode : BitVec 5) (ft fs fd : RegIx) (funct : BitVec 6) : Word32 :=
  0b010001#6 ++ fmtCode ++ ft ++ fs ++ fd ++ funct

/-- The whole word of an instruction (R95): `0x44000000 | F<<21 | ft<<16 | fs<<11 | fd<<6 | c`. -/
def encode (i : Instr) : Word32 :=
  assemble (codeOfFmt (fmtOf i)) (ftOf i) (fsOf i) (fdOf i) (functOf i)

end Sys2Proof
end

