-- ==== Sys2Proof/Machine/State.lean ====
section
/-! DEFINITION. The state of the unit and its value after reset. -/

namespace Sys2Proof.Machine

/-- Faults. There are none: "No transaction has a fault outcome, a stuck outcome or a partial effect" (R15),
and no transaction raises an exception (R192). The type is empty, so that no claim can leave a fault out. -/
inductive Fault where
deriving DecidableEq, Repr

/-- Refusals. -/
inductive Refusal where
  /-- An instruction whose meaning is not written: raised by an arm of `exec` only, and by no arm of this model.
  Safe: the model stops where the hardware goes on. -/
  | notModelled (mnemonic : String)
deriving DecidableEq, Repr

/-- The unit (R25: `f`, `full`, `fcr31` and nothing else) with its two parameters and its interface.
`inputs`, `replies` and `diags` are the interface of R51 and R194 as lists, not state the unit keeps;
`params` never changes; `draws` is the model's own counter of free values. -/
structure State where
  /-- The register file, 32 untagged slots of 64 bits (R20). -/
  f : Vector Word64 32
  /-- The addressing mode (R22): `true` is Full mode, `false` is Half mode. -/
  full : Bool
  /-- The status register at control index 31 (R24). -/
  fcr31 : Word32
  /-- The parameters `SINGLE_VIEW` and `PC_WIDTH` (R5, R8); no step writes them. -/
  params : Params
  /-- The caller's transactions that have not run yet, in its order (R51, R69). -/
  inputs : List Transaction
  /-- The values returned to the caller so far, oldest first (R51). -/
  replies : List Reply
  /-- The diagnostic output so far, oldest first (R194). -/
  diags : List Diag
  /-- How many values of `CVT_INVALID` have been drawn (assumption 6). -/
  draws : Nat
deriving DecidableEq, Repr

/-- The machine right after reset (R220, R221), with the spec's default parameters (R5, R8), no transaction
pending, and nothing returned, reported or drawn yet (assumption 15). -/
def State.reset : State where
  f := Vector.replicate 32 0#64
  full := false
  fcr31 := 0#32
  params := Params.default
  inputs := []
  replies := []
  diags := []
  draws := 0

end Sys2Proof.Machine
end

