-- ==== Sys2Proof/Machine/Float.lean ====
section
/-! DEFINITION. IEEE 754 numerics on bit patterns (R110-R117, R151-R153), exact and in integers.

Every finite value of a format is a whole multiple of its least subnormal, its UNIT (`2^-149` for S, `2^-1074`
for D), so a finite magnitude is a `Nat` of units. An exact result is a ratio or a square root of naturals, in
units, and rounding only ever compares it with halves of units. Nothing is approximated. -/

namespace Sys2Proof.Machine

/-! ## Formats -/

/-- A binary format of `w` bits: sign, `expBits`, `fracBits` (R110). `unitExp` is minus the exponent of the
least subnormal, `bias + fracBits - 1`; `overflow` is the overflow threshold of R111(a), in units;
`nan` is the format's `NAN_POLICY` function (R6). -/
structure FloatFmt (w : Nat) where
  expBits  : Nat
  fracBits : Nat
  unitExp  : Nat
  overflow : Nat
  nan      : FpOp → List Word64 → BitVec w

/-- The pattern of a binary32 NaN. -/
def nanPatternS (n : NanS) : Word32 :=
  BitVec.ofNat 32 ((if n.sign then 2 ^ 31 else 0) + 0x7F800000 + (n.fracPred.val + 1))

/-- The pattern of a binary64 NaN. -/
def nanPatternD (n : NanD) : Word64 :=
  BitVec.ofNat 64 ((if n.sign then 2 ^ 63 else 0) + 0x7FF0000000000000 + (n.fracPred.val + 1))

/-- `nanS(op, operands)` (R6). -/
def nanS (op : FpOp) (operands : List Word64) : Word32 := nanPatternS (Config.nanChoiceS op operands)

/-- `nanD(op, operands)` (R6). -/
def nanD (op : FpOp) (operands : List Word64) : Word64 := nanPatternD (Config.nanChoiceD op operands)

/-- binary32 (R110). -/
def fmtS : FloatFmt 32 where
  expBits := 8
  fracBits := 23
  unitExp := 149
  overflow := (2 ^ 128 - 2 ^ 103) * 2 ^ 149
  nan := nanS

/-- binary64 (R110). -/
def fmtD : FloatFmt 64 where
  expBits := 11
  fracBits := 52
  unitExp := 1074
  overflow := (2 ^ 1024 - 2 ^ 970) * 2 ^ 1074
  nan := nanD

variable {w : Nat} (F : FloatFmt w)

/-! ## Classes of patterns (R110) -/

/-- The biased exponent field. -/
def FloatFmt.expField (a : BitVec w) : Nat := a.toNat / 2 ^ F.fracBits % 2 ^ F.expBits
/-- The fraction field. -/
def FloatFmt.fracField (a : BitVec w) : Nat := a.toNat % 2 ^ F.fracBits
/-- The pattern without its sign bit. -/
def FloatFmt.magPattern (a : BitVec w) : Nat := a.toNat % 2 ^ (F.expBits + F.fracBits)
/-- An exponent field of all ones. -/
def FloatFmt.expOnes : Nat := 2 ^ F.expBits - 1
/-- The magnitude pattern of an infinity. -/
def FloatFmt.infPattern : Nat := F.expOnes * 2 ^ F.fracBits

/-- `sign(a)`: `true` is negative. -/
def signOf (a : BitVec w) : Bool := a.msb
/-- Exponent all ones, fraction nonzero; quiet or signalling alike. -/
def FloatFmt.isNaN (a : BitVec w) : Bool := F.expField a == F.expOnes && F.fracField a != 0
/-- Exponent all ones, fraction zero. -/
def FloatFmt.isInf (a : BitVec w) : Bool := F.expField a == F.expOnes && F.fracField a == 0
/-- Exponent and fraction zero, either sign. -/
def FloatFmt.isZero (a : BitVec w) : Bool := F.expField a == 0 && F.fracField a == 0
/-- Neither infinite nor a NaN. -/
def FloatFmt.isFinite (a : BitVec w) : Bool := F.expField a != F.expOnes

/-- A pattern from a sign and a magnitude pattern. -/
def FloatFmt.pack (neg : Bool) (mag : Nat) : BitVec w :=
  BitVec.ofNat w ((if neg then 2 ^ (F.expBits + F.fracBits) else 0) + mag)
/-- `inf_F(s)` (R116). -/
def FloatFmt.inf (neg : Bool) : BitVec w := F.pack neg F.infPattern
/-- `zero_F(s)` (R116). -/
def FloatFmt.zero (neg : Bool) : BitVec w := F.pack neg 0
/-- `signbit_F`: `0x80000000` for S, `0x8000000000000000` for D. -/
def FloatFmt.signBit : BitVec w := BitVec.ofNat w (2 ^ (F.expBits + F.fracBits))

/-! ## Exact values -/

/-- The magnitude of a magnitude pattern, in units: a subnormal's fraction, or the significand shifted by the
exponent field less one. -/
def FloatFmt.units (mag : Nat) : Nat :=
  let e := mag / 2 ^ F.fracBits
  let m := mag % 2 ^ F.fracBits
  if e = 0 then m else (2 ^ F.fracBits + m) * 2 ^ (e - 1)

/-- `|val(a)|` in units, exactly. -/
def FloatFmt.absUnits (a : BitVec w) : Nat := F.units (F.magPattern a)

/-- `val(a)` in units, exactly. -/
def FloatFmt.valUnits (a : BitVec w) : Int := if signOf a then -(F.absUnits a : Int) else F.absUnits a

/-- An exact positive magnitude, in units: `num / den`, or the real square root of `n`. -/
inductive Exact where
  | ratio (num den : Nat)
  | root (n : Nat)
deriving DecidableEq, Repr

/-- Compare an exact magnitude with `h` half-units, `h / 2`. -/
def Exact.cmpHalves (r : Exact) (h : Nat) : Ordering :=
  match r with
  | .ratio num den => compare (2 * num) (h * den)
  | .root n => compare (4 * n) (h * h)

/-- `h / 2 ≤ r`. -/
def Exact.atLeastHalves (r : Exact) (h : Nat) : Bool := (r.cmpHalves h).isGE

/-! ## Rounding (R111, R112): nearest, ties to even, gradual underflow -/

/-- The greatest magnitude pattern whose value is at most `r`, found bit by bit: patterns are in the order of
their values. -/
def FloatFmt.floorPattern (r : Exact) : Nat → Nat → Nat
  | 0, acc => acc
  | k + 1, acc =>
    if r.atLeastHalves (2 * F.units (acc + 2 ^ k)) then floorPattern r k (acc + 2 ^ k)
    else floorPattern r k acc

/-- The magnitude pattern that `r` rounds to (R111): an infinity from the threshold on, else the nearer of the
two neighbours, the even one on a tie. -/
def FloatFmt.roundPattern (r : Exact) : Nat :=
  if r.atLeastHalves (2 * F.overflow) then F.infPattern
  else
    let p := F.floorPattern r (F.expBits + F.fracBits) 0
    match r.cmpHalves (F.units p + F.units (p + 1)) with
    | .lt => p
    | .gt => p + 1
    | .eq => if p % 2 = 0 then p else p + 1

/-- `round_F` of an exact magnitude with a sign (R111). -/
def FloatFmt.round (neg : Bool) (r : Exact) : BitVec w := F.pack neg (F.roundPattern r)

/-! ## The shared operations (R116) -/

/-- The operands of a binary operation as `NAN_POLICY` receives them. -/
def operands2 (a b : BitVec w) : List Word64 := [a.setWidth 64, b.setWidth 64]
/-- The operand of a unary operation as `NAN_POLICY` receives it. -/
def operands1 {v : Nat} (a : BitVec v) : List Word64 := [a.setWidth 64]

/-- The rounded sum of two finite operands; exact cancellation gives `+0` (R116). -/
def FloatFmt.addFinite (a b : BitVec w) : BitVec w :=
  let r := F.valUnits a + F.valUnits b
  if r = 0 then
    if F.isZero a && F.isZero b then F.zero (signOf a && signOf b) else F.zero false
  else F.round (decide (r < 0)) (.ratio r.natAbs 1)

/-- `fadd_F` past its NaN test. -/
def FloatFmt.addNumbers (op : FpOp) (operands : List Word64) (a b : BitVec w) : BitVec w :=
  if F.isInf a && F.isInf b && signOf a != signOf b then F.nan op operands
  else if F.isInf a then a
  else if F.isInf b then b
  else F.addFinite a b

/-- `fadd_F(op, a, b)` (R116). -/
def FloatFmt.fadd (op : FpOp) (a b : BitVec w) : BitVec w :=
  if F.isNaN a || F.isNaN b then F.nan op (operands2 a b)
  else F.addNumbers op (operands2 a b) a b

/-- `fsub_F(op, a, b)` (R116): `a + (-b)`. A NaN that it generates is `nan_F(op, [a, b])`, of the operands as
the instruction reads them (R114, R121); assumption 14. -/
def FloatFmt.fsub (op : FpOp) (a b : BitVec w) : BitVec w :=
  if F.isNaN a || F.isNaN b then F.nan op (operands2 a b)
  else F.addNumbers op (operands2 a b) a (b ^^^ F.signBit)

/-- `fmul_F(op, a, b)` (R116). A product of units is a number of units times `2^-unitExp`. -/
def FloatFmt.fmul (op : FpOp) (a b : BitVec w) : BitVec w :=
  let s := signOf a ^^ signOf b
  if F.isNaN a || F.isNaN b then F.nan op (operands2 a b)
  else if (F.isInf a && F.isZero b) || (F.isZero a && F.isInf b) then F.nan op (operands2 a b)
  else if F.isInf a || F.isInf b then F.inf s
  else if F.isZero a || F.isZero b then F.zero s
  else F.round s (.ratio (F.absUnits a * F.absUnits b) (2 ^ F.unitExp))

/-- `fdiv_F(op, a, b)` (R116). A quotient of units is a plain number, `2^unitExp` times as many units. -/
def FloatFmt.fdiv (op : FpOp) (a b : BitVec w) : BitVec w :=
  let s := signOf a ^^ signOf b
  if F.isNaN a || F.isNaN b then F.nan op (operands2 a b)
  else if (F.isInf a && F.isInf b) || (F.isZero a && F.isZero b) then F.nan op (operands2 a b)
  else if F.isInf a then F.inf s
  else if F.isInf b then F.zero s
  else if F.isZero b then F.inf s
  else if F.isZero a then F.zero s
  else F.round s (.ratio (F.absUnits a * 2 ^ F.unitExp) (F.absUnits b))

/-- `fsqrt_F(op, a)` (R116). The root of `u` units is the root of `u * 2^unitExp`, in units. -/
def FloatFmt.fsqrt (op : FpOp) (a : BitVec w) : BitVec w :=
  if F.isNaN a then F.nan op (operands1 a)
  else if F.isZero a then a
  else if signOf a then F.nan op (operands1 a)
  else if F.isInf a then a
  else F.round false (.root (F.absUnits a * 2 ^ F.unitExp))

/-- `fabs_F(b) = b & ~signbit_F` (R117). -/
def FloatFmt.fabs (b : BitVec w) : BitVec w := b &&& ~~~F.signBit
/-- `fneg_F(b) = b ^ signbit_F` (R117). -/
def FloatFmt.fneg (b : BitVec w) : BitVec w := b ^^^ F.signBit

/-! ## Conversions (R151-R153) -/

/-- Float to float (R153): from a pattern of `F` to a pattern of `G`. A value of `u` units of `F` is
`u * 2^(G.unitExp) / 2^(F.unitExp)` units of `G`. From S to D nothing is lost, so rounding changes nothing. -/
def FloatFmt.toFloat {v : Nat} (G : FloatFmt v) (op : FpOp) (a : BitVec w) : BitVec v :=
  if F.isNaN a then G.nan op (operands1 a)
  else if F.isInf a then G.inf (signOf a)
  else if F.isZero a then G.zero (signOf a)
  else G.round (signOf a) (.ratio (F.absUnits a * 2 ^ G.unitExp) (2 ^ F.unitExp))

/-- Integer to float (R152). -/
def FloatFmt.ofInteger (n : Int) : BitVec w :=
  if n = 0 then F.zero false else F.round (decide (n < 0)) (.ratio (n.natAbs * 2 ^ F.unitExp) 1)

/-- `trunc(val(a))` of a finite pattern: toward zero, exactly (R151). -/
def FloatFmt.truncate (a : BitVec w) : Int :=
  let q := F.absUnits a / 2 ^ F.unitExp
  if signOf a then -(q : Int) else q

/-- `ftoi(F, N, a)` (R151): `none` where the result is `cvtInvalid`. -/
def FloatFmt.toInteger (N : Nat) (a : BitVec w) : Option (BitVec N) :=
  if F.isNaN a || F.isInf a then none
  else
    let t := F.truncate a
    if -(2 ^ (N - 1) : Int) ≤ t ∧ t ≤ 2 ^ (N - 1) - 1 then some (BitVec.ofInt N t) else none

end Sys2Proof.Machine
end

