-- ==== Sys2Proof/Machine/Flags.lean ====
section
/-! DEFINITION. The status register `fcr31`: its masks and fields (R4, R42-R45).
No instruction computes or reads a flag (R46, R113, R154), so there is no flag computation beyond these. -/

namespace Sys2Proof.Machine

/-- STATUS_KEEP_MASK (R4): the bits a status write retains (R42). -/
def statusKeepMask : Word32 := 0x0183FFFF#32

/-- STATUS_UNIMPL_MASK (R4): the bits whose writing is reported (R43). -/
def statusUnimplMask : Word32 := 0x01000F83#32

/-- What a status write of `v` stores (R42). -/
def statusStored (v : Word32) : Word32 := v &&& statusKeepMask

/-- Whether a status write of `v` is reported (R43). -/
def statusReported (v : Word32) : Bool := v &&& statusUnimplMask != 0#32

/-- STATUS_INDEX (R4): the one defined control index (R39). -/
def statusIndex : CtlIx := 31#5

/-! The fields of `fcr31`, with the names of R45 (general knowledge; no rule depends on them, no bit has an effect). -/

/-- RM, bits 1:0. -/
def State.statusRM (s : State) : BitVec 2 := s.fcr31.extractLsb' 0 2
/-- Flags, bits 6:2. -/
def State.statusFlags (s : State) : BitVec 5 := s.fcr31.extractLsb' 2 5
/-- Enables, bits 11:7. -/
def State.statusEnables (s : State) : BitVec 5 := s.fcr31.extractLsb' 7 5
/-- Cause, bits 17:12. -/
def State.statusCause (s : State) : BitVec 6 := s.fcr31.extractLsb' 12 6
/-- C, bit 23. -/
def State.statusC (s : State) : Bool := s.fcr31.getLsbD 23
/-- FS, bit 24. -/
def State.statusFS (s : State) : Bool := s.fcr31.getLsbD 24

end Sys2Proof.Machine
end

