-- ==== Sys2Proof/Machine/Ops.lean ====
section
/-! DEFINITION. The named operations over the state: slots, 32- and 64-bit access, the mode, the control space,
the diagnostic output, the unknown-opcode handler and reset. Everything else is written in terms of them (R14).
The unit takes no exception and returns from none (R192, R196): the unknown-opcode handler, which reports and
goes on, stands in their place. It accesses no memory (R60). -/

namespace Sys2Proof.Machine

/-! ## Halves of a slot (R62) -/

/-- Bits 31:0. -/
def loHalf (v : Word64) : Word32 := v.extractLsb' 0 32
/-- Bits 63:32. -/
def hiHalf (v : Word64) : Word32 := v.extractLsb' 32 32
/-- `hi ++ lo`, `hi` in bits 63:32 (R10). -/
def joinHalves (hi lo : Word32) : Word64 := hi ++ lo

/-! ## The register file -/

/-- `f[i]` (R20). -/
def State.slot (s : State) (i : RegIx) : Word64 := s.f[i.toNat]'i.isLt

/-- `f[i] <- v` (R20). -/
def State.setSlot (s : State) (i : RegIx) (v : Word64) : State := { s with f := s.f.set i.toNat v i.isLt }

/-! ## 64-bit access (R26, R27) -/

/-- `R64(i)` (R26). -/
def State.r64 (s : State) (i : RegIx) : Word64 := s.slot i

/-- `W64(i, v)` (R27). -/
def State.w64 (s : State) (i : RegIx) (v : Word64) : State := s.setSlot i v

/-! ## 32-bit access (R28-R32) -/

/-- `index & ~1`, the even slot of a pair (R29). -/
def evenSlot (i : RegIx) : RegIx := i &&& 0b11110#5

/-- `addr32(full, i)` (R32): the slot that a 32-bit index names, and whether it is that slot's high half. -/
def addr32 (full : Bool) (i : RegIx) : RegIx × Bool :=
  if full then (i, false) else (evenSlot i, i.getLsbD 0)

/-- One half of a slot. -/
def State.readHalf (s : State) (a : RegIx × Bool) : Word32 :=
  if a.2 then hiHalf (s.slot a.1) else loHalf (s.slot a.1)

/-- Replace one half of a slot and keep the other (R30, R31). -/
def State.writeHalf (s : State) (a : RegIx × Bool) (v : Word32) : State :=
  s.setSlot a.1 (if a.2 then joinHalves v (loHalf (s.slot a.1)) else joinHalves (hiHalf (s.slot a.1)) v)

/-- `R32(i)` (R28, R29). -/
def State.r32 (s : State) (i : RegIx) : Word32 := s.readHalf (addr32 s.full i)

/-- `W32(i, v)` (R30, R31). -/
def State.w32 (s : State) (i : RegIx) (v : Word32) : State := s.writeHalf (addr32 s.full i) v

/-! ## The addressing mode (R38) -/

/-- `full <- m`. -/
def State.setMode (s : State) (m : Bool) : State := { s with full := m }

/-! ## Output: diagnostics and returned values -/

/-- `diag(...)`: append one event (R194). -/
def State.diag (s : State) (e : Diag) : State := { s with diags := s.diags ++ [e] }

/-- Return a value to the caller (R51). -/
def State.reply (s : State) (r : Reply) : State := { s with replies := s.replies ++ [r] }

/-! ## The control space (R39-R44) -/

/-- `fcr31 <- v`, the raw update. -/
def State.setStatus (s : State) (v : Word32) : State := { s with fcr31 := v }

/-- `readCtl(c)`: the value returned, and the state with the event of an undefined index (R40, R41). -/
def State.readCtl (s : State) (c : CtlIx) : Word32 × State :=
  if c = statusIndex then (s.fcr31, s) else (0#32, s.diag (.invalidControlRead c))

/-- `writeCtl(c, v)` (R42-R44). -/
def State.writeCtl (s : State) (c : CtlIx) (v : Word32) : State :=
  if c = statusIndex then
    if statusReported v then (s.setStatus (statusStored v)).diag (.unimplementedStatusBits v)
    else s.setStatus (statusStored v)
  else s.diag (.invalidControlWrite c v)

/-! ## The unknown-opcode handler (R190) -/

/-- The diagnostic address `(pc_in - 4) mod 2^PC_WIDTH` (R8); 4 is INSTR_BYTES (R4). -/
def diagAddress (p : Params) (pcIn : Nat) : Nat := (((pcIn : Int) - 4) % ((2 ^ p.pcWidth : Nat) : Int)).toNat

/-- The handler of an undefined entry: one critical event and nothing else (R190). -/
def State.unknownOpcode (s : State) (instr : Word32) (pcIn : Nat) : State :=
  s.diag (.unknownOpcode instr (diagAddress s.params pcIn))

/-! ## Free values and reset -/

/-- One more value of `CVT_INVALID` has been drawn (assumption 6). -/
def State.countDraw (s : State) : State := { s with draws := s.draws + 1 }

/-- `reset()` (R220-R222): the three pieces of the unit's state, and nothing of its interface. -/
def State.resetUnit (s : State) : State :=
  { s with f := Vector.replicate 32 0#64, full := false, fcr31 := 0#32 }

end Sys2Proof.Machine
end

