-- ==== Sys2Proof/Machine/Operands.lean ====
section
/-! DEFINITION. The typed views of registers (R33-R35): every operand form of the unit. No operand is an
immediate (R92). A view is a reinterpretation of stored bits, with no conversion (R36), so it reads and writes patterns. -/

namespace Sys2Proof.Machine

/-- Where the single view of register `i` lies (R33): as a 32-bit access under `ModeDependent`,
bits 31:0 of slot `i` under `DirectLow`. -/
def State.singleAddr (s : State) (i : RegIx) : RegIx × Bool :=
  match s.params.singleView with
  | .modeDependent => addr32 s.full i
  | .directLow => (i, false)

/-- `FS(i)` (R33). -/
def State.readFS (s : State) (i : RegIx) : Word32 := s.readHalf (s.singleAddr i)

/-- `FSw(i, b)` (R33). -/
def State.writeFS (s : State) (i : RegIx) (b : Word32) : State := s.writeHalf (s.singleAddr i) b

/-- `FD(i)` (R34). -/
def State.readFD (s : State) (i : RegIx) : Word64 := s.r64 i

/-- `FDw(i, b)` (R34). -/
def State.writeFD (s : State) (i : RegIx) (b : Word64) : State := s.w64 i b

/-- The 32-bit integer view `sint_32(R32(i))` (R35), whatever `SINGLE_VIEW` holds (R150). -/
def State.readW (s : State) (i : RegIx) : Int := (s.r32 i).toInt

/-- The 64-bit integer view `sint_64(R64(i))` (R35). -/
def State.readL (s : State) (i : RegIx) : Int := (s.r64 i).toInt

/-! ## The shapes of instructions: sources are read, then the one destination is written (R13, R225) -/

/-- single ← single op single. -/
def State.binaryS (s : State) (op : Word32 → Word32 → Word32) (fd fs ft : RegIx) : State :=
  s.writeFS fd (op (s.readFS fs) (s.readFS ft))

/-- single ← op single. -/
def State.unaryS (s : State) (op : Word32 → Word32) (fd fs : RegIx) : State :=
  s.writeFS fd (op (s.readFS fs))

/-- double ← double op double. -/
def State.binaryD (s : State) (op : Word64 → Word64 → Word64) (fd fs ft : RegIx) : State :=
  s.writeFD fd (op (s.readFD fs) (s.readFD ft))

/-- double ← op double. -/
def State.unaryD (s : State) (op : Word64 → Word64) (fd fs : RegIx) : State :=
  s.writeFD fd (op (s.readFD fs))

end Sys2Proof.Machine
end

