-- ==== Sys2Proof/Machine/ArithD.lean ====
section
/-! DEFINITION. The eight double-precision arithmetic and data-movement instructions (R130-R137).
Each reads its sources by the double view, writes its destination and nothing else (R113), and always completes. -/

namespace Sys2Proof.Machine

/-- add.d (R130): double-precision add: `fs + ft`. -/
def execAddD (fd fs ft : RegIx) (s : State) : Host.Outcome State Fault Refusal :=
  .next (s.binaryD (fmtD.fadd .addD) fd fs ft)

/-- sub.d (R131): double-precision subtract: `fs - ft`. -/
def execSubD (fd fs ft : RegIx) (s : State) : Host.Outcome State Fault Refusal :=
  .next (s.binaryD (fmtD.fsub .subD) fd fs ft)

/-- mul.d (R132): double-precision multiply. -/
def execMulD (fd fs ft : RegIx) (s : State) : Host.Outcome State Fault Refusal :=
  .next (s.binaryD (fmtD.fmul .mulD) fd fs ft)

/-- div.d (R133): double-precision divide: `fs / ft`. -/
def execDivD (fd fs ft : RegIx) (s : State) : Host.Outcome State Fault Refusal :=
  .next (s.binaryD (fmtD.fdiv .divD) fd fs ft)

/-- sqrt.d (R134): double-precision square root. -/
def execSqrtD (fd fs : RegIx) (s : State) : Host.Outcome State Fault Refusal :=
  .next (s.unaryD (fmtD.fsqrt .sqrtD) fd fs)

/-- abs.d (R135): double-precision absolute value, of the pattern (R117). -/
def execAbsD (fd fs : RegIx) (s : State) : Host.Outcome State Fault Refusal :=
  .next (s.unaryD fmtD.fabs fd fs)

/-- mov.d (R136): double-precision move, bit for bit (R117). -/
def execMovD (fd fs : RegIx) (s : State) : Host.Outcome State Fault Refusal :=
  .next (s.unaryD id fd fs)

/-- neg.d (R137): double-precision negate, of the pattern (R117). -/
def execNegD (fd fs : RegIx) (s : State) : Host.Outcome State Fault Refusal :=
  .next (s.unaryD fmtD.fneg fd fs)

end Sys2Proof.Machine
end

