-- ==== Sys2Proof/Machine/ArithS.lean ====
section
/-! DEFINITION. The eight single-precision arithmetic and data-movement instructions (R120-R127).
Each reads its sources by the single view, writes its destination and nothing else (R113), and always completes. -/

namespace Sys2Proof.Machine

/-- add.s (R120): single-precision add: `fs + ft`. -/
def execAddS (fd fs ft : RegIx) (s : State) : Host.Outcome State Fault Refusal :=
  .next (s.binaryS (fmtS.fadd .addS) fd fs ft)

/-- sub.s (R121): single-precision subtract: `fs - ft`. -/
def execSubS (fd fs ft : RegIx) (s : State) : Host.Outcome State Fault Refusal :=
  .next (s.binaryS (fmtS.fsub .subS) fd fs ft)

/-- mul.s (R122): single-precision multiply. -/
def execMulS (fd fs ft : RegIx) (s : State) : Host.Outcome State Fault Refusal :=
  .next (s.binaryS (fmtS.fmul .mulS) fd fs ft)

/-- div.s (R123): single-precision divide: `fs / ft`. -/
def execDivS (fd fs ft : RegIx) (s : State) : Host.Outcome State Fault Refusal :=
  .next (s.binaryS (fmtS.fdiv .divS) fd fs ft)

/-- sqrt.s (R124): single-precision square root. -/
def execSqrtS (fd fs : RegIx) (s : State) : Host.Outcome State Fault Refusal :=
  .next (s.unaryS (fmtS.fsqrt .sqrtS) fd fs)

/-- abs.s (R125): single-precision absolute value, of the pattern (R117). -/
def execAbsS (fd fs : RegIx) (s : State) : Host.Outcome State Fault Refusal :=
  .next (s.unaryS fmtS.fabs fd fs)

/-- mov.s (R126): single-precision move, bit for bit (R117). -/
def execMovS (fd fs : RegIx) (s : State) : Host.Outcome State Fault Refusal :=
  .next (s.unaryS id fd fs)

/-- neg.s (R127): single-precision negate, of the pattern (R117). -/
def execNegS (fd fs : RegIx) (s : State) : Host.Outcome State Fault Refusal :=
  .next (s.unaryS fmtS.fneg fd fs)

end Sys2Proof.Machine
end

