-- ==== Sys2Proof/Machine/Convert.lean ====
section
/-! DEFINITION. The ten conversions (R150-R169). Each reads `fs` by the view of its source format, writes `fd` by
the view of its destination format and nothing else (R154), and always completes. `ft` is not read (R150). -/

namespace Sys2Proof.Machine

/-- The integer result of a float-to-integer conversion, and the state after it: the truncated value where it
fits (R151), else one draw of `CVT_INVALID` (R7, D11; assumption 6). -/
def State.integerOrDraw {w : Nat} (s : State) (F : FloatFmt w) (srcFmt : Fmt) (N : Nat) (a : BitVec w) :
    BitVec N × State :=
  match F.toInteger N a with
  | some v => (v, s)
  | none => (Config.cvtInvalid s.draws srcFmt N a, s.countDraw)

/-- cvt.d.s (R163): single to double. -/
def execCvtDS (fd fs : RegIx) (s : State) : Host.Outcome State Fault Refusal :=
  .next (s.writeFD fd (fmtS.toFloat fmtD .cvtDS (s.readFS fs)))

/-- cvt.w.s (R166): single to 32-bit integer, truncating. -/
def execCvtWS (fd fs : RegIx) (s : State) : Host.Outcome State Fault Refusal :=
  let r := s.integerOrDraw fmtS .S 32 (s.readFS fs)
  .next (r.2.w32 fd r.1)

/-- cvt.l.s (R168): single to 64-bit integer, truncating. -/
def execCvtLS (fd fs : RegIx) (s : State) : Host.Outcome State Fault Refusal :=
  let r := s.integerOrDraw fmtS .S 64 (s.readFS fs)
  .next (r.2.w64 fd r.1)

/-- cvt.s.d (R160): double to single. -/
def execCvtSD (fd fs : RegIx) (s : State) : Host.Outcome State Fault Refusal :=
  .next (s.writeFS fd (fmtD.toFloat fmtS .cvtSD (s.readFD fs)))

/-- cvt.w.d (R167): double to 32-bit integer, truncating. -/
def execCvtWD (fd fs : RegIx) (s : State) : Host.Outcome State Fault Refusal :=
  let r := s.integerOrDraw fmtD .D 32 (s.readFD fs)
  .next (r.2.w32 fd r.1)

/-- cvt.l.d (R169): double to 64-bit integer, truncating. -/
def execCvtLD (fd fs : RegIx) (s : State) : Host.Outcome State Fault Refusal :=
  let r := s.integerOrDraw fmtD .D 64 (s.readFD fs)
  .next (r.2.w64 fd r.1)

/-- cvt.s.w (R161): 32-bit integer to single. -/
def execCvtSW (fd fs : RegIx) (s : State) : Host.Outcome State Fault Refusal :=
  .next (s.writeFS fd (fmtS.ofInteger (s.readW fs)))

/-- cvt.d.w (R164): 32-bit integer to double. -/
def execCvtDW (fd fs : RegIx) (s : State) : Host.Outcome State Fault Refusal :=
  .next (s.writeFD fd (fmtD.ofInteger (s.readW fs)))

/-- cvt.s.l (R162): 64-bit integer to single. -/
def execCvtSL (fd fs : RegIx) (s : State) : Host.Outcome State Fault Refusal :=
  .next (s.writeFS fd (fmtS.ofInteger (s.readL fs)))

/-- cvt.d.l (R165): 64-bit integer to double. -/
def execCvtDL (fd fs : RegIx) (s : State) : Host.Outcome State Fault Refusal :=
  .next (s.writeFD fd (fmtD.ofInteger (s.readL fs)))

end Sys2Proof.Machine
end

