-- ==== Sys2Proof/Machine/Transact.lean ====
section
/-! DEFINITION. What each interface transaction does (R51), and how a caller's whole word becomes one (R95). -/

namespace Sys2Proof.Machine

/-- `execute(fmt, instr, pc_in)` (R85): the instruction of the entry dispatched to, or the unknown-opcode handler. -/
def execute (fmt : Fmt) (instr : Word32) (pcIn : Nat) (s : State) : Host.Outcome State Fault Refusal :=
  match unitDecode fmt instr with
  | some i => exec i s
  | none => .next (s.unknownOpcode instr pcIn)

/-- `read32(i)`: return `R32(i)`. -/
def doRead32 (i : RegIx) (s : State) : State := s.reply (.bits32 (s.r32 i))

/-- `read64(i)`: return `R64(i)`. -/
def doRead64 (i : RegIx) (s : State) : State := s.reply (.bits64 (s.r64 i))

/-- `readCtl(c)`: return the value, with the event of an undefined index (R40, R41). -/
def doReadCtl (c : CtlIx) (s : State) : State := (s.readCtl c).2.reply (.bits32 (s.readCtl c).1)

/-- One transaction, as a whole (R15, R67). -/
def transact (t : Transaction) (s : State) : Host.Outcome State Fault Refusal :=
  match t with
  | .execute fmt instr pcIn => execute fmt instr pcIn s
  | .read32 i => .next (doRead32 i s)
  | .write32 i v => .next (s.w32 i v)
  | .read64 i => .next (doRead64 i s)
  | .write64 i v => .next (s.w64 i v)
  | .readCtl c => .next (doReadCtl c s)
  | .writeCtl c v => .next (s.writeCtl c v)
  | .setAddressingMode m => .next (s.setMode m)
  | .reset => .next s.resetUnit

/-- The transactions still pending, replaced. -/
def State.setInputs (s : State) (ts : List Transaction) : State := { s with inputs := ts }

/-- The oldest pending transaction, taken off the queue and run (R69). With none pending nothing happens:
the unit has no activity of its own (R198, R201); assumption 2. -/
def runNext (s : State) : Host.Outcome State Fault Refusal :=
  match s.inputs with
  | [] => .next s
  | t :: rest => transact t (s.setInputs rest)

/-- The `pc_in` a caller supplies with a word placed by `withFetchWord`: that of an instruction at address 0,
4 past it (R191); assumption 8. -/
def fetchPcIn : Nat := 4

/-- What a caller does with a whole word (R95): an `execute` with the selector that the word names, in front of
what is pending; no call at all for a word that is not the unit's. -/
def State.presentWord (s : State) (w : Word32) : State :=
  match selectorOf w with
  | .ok fmt => s.setInputs (.execute fmt w fetchPcIn :: s.inputs)
  | .error _ => s

end Sys2Proof.Machine
end

