-- ==== Sys2Proof/Machine/Step.lean ====
section
/-! DEFINITION. One step of the machine: the next transaction, whole. -/

namespace Sys2Proof.Machine

/-- One step: run the oldest pending transaction (R15, R69). -/
def step (s : State) : Host.Outcome State Fault Refusal := runNext s

/-- `s` with an opcode-table word placed where the next step takes its transaction from: the caller calls
`execute` with it (assumption 1, assumption 8). -/
def State.withFetchWord (s : State) (nbits w : Nat) : State := s.presentWord (tableWord nbits w)

end Sys2Proof.Machine
end

