-- ==== Sys2Proof/Safety.lean ====
section
/-! DEFINITION. What counts as a safe run, and the invariant every step keeps. -/

namespace Sys2Proof.Machine

/-- Whether an event reports an undefined entry (R190). -/
def Diag.isUnknownOpcode : Diag → Bool
  | .unknownOpcode _ _ => true
  | .invalidControlRead _ => false
  | .invalidControlWrite _ _ => false
  | .unimplementedStatusBits _ => false

/-- A state that no unknown opcode has led to: the premise that D17 recommends, since the silicon would trap
where the unit goes on (assumption 12). -/
def State.safe (s : State) : Bool := !s.diags.any Diag.isUnknownOpcode

/-- The data of an event are as R194's table says. -/
def Diag.wf (p : Params) : Diag → Bool
  | .unknownOpcode _ addr => decide (addr < 2 ^ p.pcWidth)
  | .invalidControlRead c => c != 31#5
  | .invalidControlWrite c _ => c != 31#5
  | .unimplementedStatusBits v => v &&& 0x01000F83#32 != 0#32

/-- The invariant: bits 22:18 and 31:25 of `fcr31` read 0 at all times (R45), and every event of the diagnostic
output has the data that R194 gives its kind. -/
def State.Inv (s : State) : Prop :=
  s.fcr31 &&& 0xFE7C0000#32 = 0#32 ∧ ∀ e ∈ s.diags, e.wf s.params = true

end Sys2Proof.Machine
end

