-- ==== Sys2Proof/Certificates/Slice0/Obligations.lean ====
section
/-! DEFINITION. The statements for the provers, and the words they are written in. The words are written from the
spec's tables, apart from the model's own operations, so that a statement compares the model with the spec. -/

namespace Sys2Proof.Claims

open Sys2Proof Sys2Proof.Machine

/-! ## Registers, as R32's table names their storage -/

/-- The table of R32: `low` is Full mode (or `DirectLow`, for the single view). -/
def location (low : Bool) (i : RegIx) : RegIx × Bool :=
  if low then (i, false) else if i.toNat % 2 = 0 then (i, false) else (i - 1, true)

/-- Bits 63:32 (`true`) or 31:0 (`false`). -/
def half (v : Word64) (high : Bool) : Word32 := if high then v.extractLsb' 32 32 else v.extractLsb' 0 32

/-- The 32 bits that R32's table gives register `i`. -/
def reg32 (low : Bool) (s : State) (i : RegIx) : Word32 :=
  half (s.slot (location low i).1) (location low i).2

/-- Whether a single view ignores the mode's pairing (R33): in Full mode, or under `DirectLow`. -/
def lowView (s : State) : Bool := s.full || decide (s.params.singleView = .directLow)

/-- The single operand of register `i` (R33). -/
def single (s : State) (i : RegIx) : Word32 := reg32 (lowView s) s i

/-- `t` is `s` with 32-bit register `i` holding `v`: the other half of its slot and every other slot as before. -/
def Wrote32 (low : Bool) (s t : State) (i : RegIx) (v : Word32) : Prop :=
  reg32 low t i = v ∧
  half (t.slot (location low i).1) (!(location low i).2) = half (s.slot (location low i).1) (!(location low i).2) ∧
  ∀ j, j ≠ (location low i).1 → t.slot j = s.slot j

/-- `t` is `s` with slot `i` holding `v`, every other slot as before. -/
def Wrote64 (s t : State) (i : RegIx) (v : Word64) : Prop := t.slot i = v ∧ ∀ j, j ≠ i → t.slot j = s.slot j

/-- Everything but the slots and the model's draw counter is as before: mode, status, parameters, interface. -/
def RestKept (s t : State) : Prop :=
  t.full = s.full ∧ t.fcr31 = s.fcr31 ∧ t.params = s.params ∧ t.inputs = s.inputs ∧
  t.replies = s.replies ∧ t.diags = s.diags

/-- The frame of an instruction with a single destination, and its result. -/
def SetsSingle (i : Instr) (s : State) (fd : RegIx) (v : Word32) : Prop :=
  ∃ t, exec i s = .next t ∧ Wrote32 (lowView s) s t fd v ∧ RestKept s t ∧ t.draws = s.draws

/-- The frame of an instruction with a double destination, and its result. -/
def SetsDouble (i : Instr) (s : State) (fd : RegIx) (v : Word64) : Prop :=
  ∃ t, exec i s = .next t ∧ Wrote64 s t fd v ∧ RestKept s t ∧ t.draws = s.draws

/-! ## IEEE 754 patterns and their real values (R110, R11) -/

/-- The widths of a binary format. -/
structure Ieee where
  expBits : Nat
  fracBits : Nat

/-- binary32. -/
def binary32 : Ieee := ⟨8, 23⟩
/-- binary64. -/
def binary64 : Ieee := ⟨11, 52⟩

variable {w : Nat} (K : Ieee)

/-- The exponent field. -/
def Ieee.exp (a : BitVec w) : Nat := (a.extractLsb' K.fracBits K.expBits).toNat
/-- The fraction field. -/
def Ieee.frac (a : BitVec w) : Nat := (a.extractLsb' 0 K.fracBits).toNat
/-- The bias, 127 or 1023. -/
def Ieee.bias : Nat := 2 ^ (K.expBits - 1) - 1

def Ieee.NaN (a : BitVec w) : Prop := K.exp a = 2 ^ K.expBits - 1 ∧ K.frac a ≠ 0
def Ieee.Inf (a : BitVec w) : Prop := K.exp a = 2 ^ K.expBits - 1 ∧ K.frac a = 0
def Ieee.Zero (a : BitVec w) : Prop := K.exp a = 0 ∧ K.frac a = 0
def Ieee.Finite (a : BitVec w) : Prop := K.exp a ≠ 2 ^ K.expBits - 1

/-- `val(a)`, the real value of a finite pattern. -/
noncomputable def Ieee.val (a : BitVec w) : ℝ :=
  (if a.msb then -1 else 1) *
    (if K.exp a = 0 then (K.frac a / 2 ^ K.fracBits) * (2 : ℝ) ^ (1 - (K.bias : ℤ))
     else (1 + K.frac a / 2 ^ K.fracBits) * (2 : ℝ) ^ ((K.exp a : ℤ) - K.bias))

/-- The overflow threshold of R111(a): `2^128 - 2^103` or `2^1024 - 2^970`. -/
noncomputable def Ieee.threshold : ℝ := 2 ^ (K.bias + 1) - 2 ^ (K.bias - K.fracBits - 1)

/-- `b = round_F(r)`, for a nonzero real `r` (R111): (a) an infinity from the threshold on, (b) else the nearest
finite value, the one with an even last bit on a tie, (c) with the sign of `r` always. -/
def Ieee.RoundsTo (r : ℝ) (b : BitVec w) : Prop :=
  (b.msb = true ↔ r < 0) ∧
  (K.threshold ≤ |r| → K.Inf b) ∧
  (|r| < K.threshold → K.Finite b ∧
    (∀ q : BitVec w, K.Finite q → |K.val b - r| ≤ |K.val q - r|) ∧
    (∀ q : BitVec w, K.Finite q → K.val q ≠ K.val b → |K.val q - r| = |K.val b - r| → b.getLsbD 0 = false))

/-- A zero with sign `neg` (R116). -/
def Ieee.ZeroOf (neg : Bool) (b : BitVec w) : Prop := K.Zero b ∧ b.msb = neg
/-- An infinity with sign `neg` (R116). -/
def Ieee.InfOf (neg : Bool) (b : BitVec w) : Prop := K.Inf b ∧ b.msb = neg

/-- Truncation of a real toward zero (R151). -/
noncomputable def trunc (x : ℝ) : ℤ := if 0 ≤ x then ⌊x⌋ else ⌈x⌉

/-! ## What R114-R116 say of one operation, for patterns of one format -/

/-- Addition of patterns, NaN cases apart (R116). -/
def AddRule (add : BitVec w → BitVec w → BitVec w) : Prop :=
  ∀ a b : BitVec w, ¬ K.NaN a → ¬ K.NaN b →
    (K.Inf a → (K.Inf b → a.msb = b.msb) → add a b = a) ∧
    (K.Finite a → K.Inf b → add a b = b) ∧
    (K.Finite a → K.Finite b → K.val a + K.val b ≠ 0 → K.RoundsTo (K.val a + K.val b) (add a b)) ∧
    (K.Zero a → K.Zero b → K.ZeroOf (a.msb && b.msb) (add a b)) ∧
    (K.Finite a → K.Finite b → ¬ K.Zero a → K.val a + K.val b = 0 → K.ZeroOf false (add a b))

/-- Subtraction of patterns, NaN cases apart (R116). -/
def SubRule (sub : BitVec w → BitVec w → BitVec w) : Prop :=
  ∀ a b : BitVec w, ¬ K.NaN a → ¬ K.NaN b →
    (K.Inf a → (K.Inf b → a.msb ≠ b.msb) → sub a b = a) ∧
    (K.Finite a → K.Inf b → K.InfOf (!b.msb) (sub a b)) ∧
    (K.Finite a → K.Finite b → K.val a - K.val b ≠ 0 → K.RoundsTo (K.val a - K.val b) (sub a b)) ∧
    (K.Zero a → K.Zero b → K.ZeroOf (a.msb && !b.msb) (sub a b)) ∧
    (K.Finite a → K.Finite b → ¬ K.Zero a → K.val a - K.val b = 0 → K.ZeroOf false (sub a b))

/-- Multiplication of patterns, NaN cases apart (R116). -/
def MulRule (mul : BitVec w → BitVec w → BitVec w) : Prop :=
  ∀ a b : BitVec w, ¬ K.NaN a → ¬ K.NaN b →
    (K.Inf a → ¬ K.Zero b → K.InfOf (a.msb ^^ b.msb) (mul a b)) ∧
    (¬ K.Zero a → K.Inf b → K.InfOf (a.msb ^^ b.msb) (mul a b)) ∧
    (K.Finite a → K.Finite b → K.Zero a ∨ K.Zero b → K.ZeroOf (a.msb ^^ b.msb) (mul a b)) ∧
    (K.Finite a → K.Finite b → ¬ K.Zero a → ¬ K.Zero b → K.RoundsTo (K.val a * K.val b) (mul a b))

/-- Division of patterns, NaN cases apart (R116). -/
def DivRule (div : BitVec w → BitVec w → BitVec w) : Prop :=
  ∀ a b : BitVec w, ¬ K.NaN a → ¬ K.NaN b →
    (K.Inf a → K.Finite b → K.InfOf (a.msb ^^ b.msb) (div a b)) ∧
    (K.Finite a → K.Inf b → K.ZeroOf (a.msb ^^ b.msb) (div a b)) ∧
    (K.Finite a → ¬ K.Zero a → K.Zero b → K.InfOf (a.msb ^^ b.msb) (div a b)) ∧
    (K.Zero a → K.Finite b → ¬ K.Zero b → K.ZeroOf (a.msb ^^ b.msb) (div a b)) ∧
    (K.Finite a → K.Finite b → ¬ K.Zero a → ¬ K.Zero b → K.RoundsTo (K.val a / K.val b) (div a b))

/-- The square root of a pattern, NaN cases apart (R116). -/
def SqrtRule (sqrt : BitVec w → BitVec w) : Prop :=
  ∀ a : BitVec w, ¬ K.NaN a →
    (K.Zero a → sqrt a = a) ∧
    (K.Inf a → a.msb = false → sqrt a = a) ∧
    (K.Finite a → ¬ K.Zero a → a.msb = false → K.RoundsTo (Real.sqrt (K.val a)) (sqrt a))

/-- Where a binary operation answers a NaN (R114, R115): it is `nan_F(op, [a, b])` where an operand is a NaN or
the pair is `invalid`, and it is no NaN anywhere else. -/
def NaNRule2 (nan : FpOp → List Word64 → BitVec w) (invalid : BitVec w → BitVec w → Prop) (op : FpOp)
    (f : BitVec w → BitVec w → BitVec w) : Prop :=
  ∀ a b : BitVec w,
    (K.NaN a ∨ K.NaN b ∨ invalid a b → f a b = nan op [a.setWidth 64, b.setWidth 64]) ∧
    (¬ K.NaN a → ¬ K.NaN b → ¬ invalid a b → ¬ K.NaN (f a b))

/-- Where the square root answers a NaN (R114, R115). -/
def NaNRule1 (nan : FpOp → List Word64 → BitVec w) (op : FpOp) (f : BitVec w → BitVec w) : Prop :=
  ∀ a : BitVec w,
    (K.NaN a ∨ (a.msb = true ∧ ¬ K.Zero a) → f a = nan op [a.setWidth 64]) ∧
    (¬ K.NaN a → ¬ (a.msb = true ∧ ¬ K.Zero a) → ¬ K.NaN (f a))

/-- The NaN rules of the five arithmetic operations of one format (R114, R115). -/
def NaNRules (F : FloatFmt w) (nan : FpOp → List Word64 → BitVec w) (add sub mul div sqrt : FpOp) : Prop :=
  NaNRule2 K nan (fun a b => K.Inf a ∧ K.Inf b ∧ a.msb ≠ b.msb) add (F.fadd add) ∧
  NaNRule2 K nan (fun a b => K.Inf a ∧ K.Inf b ∧ a.msb = b.msb) sub (F.fsub sub) ∧
  NaNRule2 K nan (fun a b => (K.Zero a ∧ K.Inf b) ∨ (K.Inf a ∧ K.Zero b)) mul (F.fmul mul) ∧
  NaNRule2 K nan (fun a b => (K.Zero a ∧ K.Zero b) ∨ (K.Inf a ∧ K.Inf b)) div (F.fdiv div) ∧
  NaNRule1 K nan sqrt (F.fsqrt sqrt)

/-- `ftoi(F, N, a)` (R151): the truncated value where it fits, no value for a NaN, an infinity or one that does not. -/
def TruncRule (N : Nat) (conv : BitVec w → Option (BitVec N)) : Prop :=
  ∀ a : BitVec w,
    (K.Finite a → -(2 ^ (N - 1) : ℤ) ≤ trunc (K.val a) → trunc (K.val a) ≤ 2 ^ (N - 1) - 1 →
      ∃ v, conv a = some v ∧ v.toInt = trunc (K.val a)) ∧
    (K.NaN a ∨ K.Inf a → conv a = none) ∧
    (K.Finite a → (trunc (K.val a) < -(2 ^ (N - 1) : ℤ) ∨ 2 ^ (N - 1) - 1 < trunc (K.val a)) → conv a = none)

/-- Integer to float (R152): `+0` for 0, else the rounded integer, exact where it is representable. -/
def IntRule (conv : ℤ → BitVec w) (n : ℤ) : Prop :=
  (n = 0 → conv n = 0) ∧
  (n ≠ 0 → K.RoundsTo n (conv n)) ∧
  ((∃ q : BitVec w, K.Finite q ∧ K.val q = n) → K.val (conv n) = n) ∧
  K.Finite (conv n)

/-! ## The defined entries of the dispatch tables (R86-R89) -/

/-- The function codes with an instruction, by format. -/
def definedFuncts : Fmt → List Nat
  | .S => [0x00, 0x01, 0x02, 0x03, 0x04, 0x05, 0x06, 0x07, 0x21, 0x24, 0x25]
  | .D => [0x00, 0x01, 0x02, 0x03, 0x04, 0x05, 0x06, 0x07, 0x20, 0x24, 0x25]
  | .W => [0x20, 0x21]
  | .L => [0x20, 0x21]

/-- A defined `(fmt, funct)` pair. -/
def Defined (fmt : Fmt) (instr : Word32) : Prop := instr.toNat % 64 ∈ definedFuncts fmt

/-- The instructions that read `ft` (R120-R123, R130-R133). -/
def readsFt : Instr → Bool
  | .addS _ _ _ | .subS _ _ _ | .mulS _ _ _ | .divS _ _ _ => true
  | .addD _ _ _ | .subD _ _ _ | .mulD _ _ _ | .divD _ _ _ => true
  | .sqrtS _ _ | .absS _ _ | .movS _ _ | .negS _ _ | .cvtDS _ _ | .cvtWS _ _ | .cvtLS _ _ => false
  | .sqrtD _ _ | .absD _ _ | .movD _ _ | .negD _ _ | .cvtSD _ _ | .cvtWD _ _ | .cvtLD _ _ => false
  | .cvtSW _ _ | .cvtDW _ _ | .cvtSL _ _ | .cvtDL _ _ => false

/-- The instructions all of whose operands are 64 bits wide: no single and no 32-bit integer among them. -/
def allWide : Instr → Bool
  | .addD _ _ _ | .subD _ _ _ | .mulD _ _ _ | .divD _ _ _ => true
  | .sqrtD _ _ | .absD _ _ | .movD _ _ | .negD _ _ | .cvtLD _ _ | .cvtDL _ _ => true
  | .addS _ _ _ | .subS _ _ _ | .mulS _ _ _ | .divS _ _ _ => false
  | .sqrtS _ _ | .absS _ _ | .movS _ _ | .negS _ _ | .cvtDS _ _ | .cvtWS _ _ | .cvtLS _ _ => false
  | .cvtSD _ _ | .cvtWD _ _ | .cvtSW _ _ | .cvtDW _ _ | .cvtSL _ _ => false

/-- A word from a base pattern and register fields, as the instruction rules write it. -/
def wordOf (base : Word32) (ft fs fd : RegIx) : Word32 :=
  base ||| (ft.setWidth 32 <<< 16) ||| (fs.setWidth 32 <<< 11) ||| (fd.setWidth 32 <<< 6)

/-- The events that one transaction emits in a state (R195). -/
def expectedDiags (s : State) : Transaction → List Diag → Prop
  | .execute fmt instr pcIn, new =>
    (Defined fmt instr → new = []) ∧
    (¬ Defined fmt instr → ∃ a, new = [.unknownOpcode instr a] ∧ a < 2 ^ s.params.pcWidth ∧
      (a + 4) % 2 ^ s.params.pcWidth = pcIn % 2 ^ s.params.pcWidth)
  | .readCtl c, new => new = if c = 31 then [] else [.invalidControlRead c]
  | .writeCtl c v, new =>
    new = if c ≠ 31 then [.invalidControlWrite c v]
      else if v &&& 0x01000F83 ≠ 0 then [.unimplementedStatusBits v] else []
  | .read32 _, new | .write32 _ _, new | .read64 _, new | .write64 _ _, new
  | .setAddressingMode _, new | .reset, new => new = []

end Sys2Proof.Claims

open Sys2Proof Sys2Proof.Machine Sys2Proof.Claims

/-! ## Reset -/

/-- R220: the machine after reset; every read, by every view and in either mode, gives zero. -/
def Obligations.ResetStateReadsZero : Prop :=
  (∀ i, State.reset.slot i = 0) ∧ State.reset.full = false ∧ State.reset.fcr31 = 0 ∧
  ∀ m i, (State.reset.setMode m).r32 i = 0 ∧ (State.reset.setMode m).r64 i = 0 ∧
    (State.reset.setMode m).readFS i = 0 ∧ (State.reset.setMode m).readFD i = 0

/-- R220: `reset()` from any state zeroes the unit, so that every read by every view, in either mode, gives zero
(derived by R220). It emits nothing (R222, with the spec's decision D19). That it keeps the replies, the parameters, the
other pending transactions and the draw counter is the model's choice (assumption 15). -/
def Obligations.ResetTransactionZeroesTheUnit : Prop :=
  ∀ s rest, s.inputs = .reset :: rest →
    ∃ t, step s = .next t ∧ (∀ i, t.slot i = 0) ∧ t.full = false ∧ t.fcr31 = 0 ∧
      (∀ m i, (t.setMode m).r32 i = 0 ∧ (t.setMode m).r64 i = 0 ∧
        (t.setMode m).readFS i = 0 ∧ (t.setMode m).readFD i = 0) ∧
      t.diags = s.diags ∧ t.replies = s.replies ∧ t.params = s.params ∧ t.inputs = rest ∧ t.draws = s.draws

/-! ## Encoding and dispatch -/

/-- Words written out from the spec's examples (95_test_vectors.md) decode to what they stand for; U8-U10, the bits
the unit does not read, among them. -/
def Obligations.SampleWordsDecode : Prop :=
  decodeTableWord 32 0x46041000 = some (.addS 0 2 4) ∧
  decodeTableWord 32 0x46252180 = some (.addD 6 4 5) ∧
  decodeTableWord 32 0x460C5383 = some (.divS 14 10 12) ∧
  decodeTableWord 32 0x46001124 = some (.cvtWS 4 2) ∧
  decodeTableWord 32 0x468021A1 = some (.cvtDW 6 4) ∧
  decodeTableWord 32 0x46203220 = some (.cvtSD 8 6) ∧
  decodeTableWord 32 0x460010A1 = some (.cvtDS 2 2) ∧
  decodeTableWord 32 0x46A00024 = none ∧
  unitDecode .S 0x46071004 = some (.sqrtS 0 2) ∧
  unitDecode .S 0xFFE41000 = some (.addS 0 2 4) ∧
  unitDecode .D 0x46041000 = some (.addD 0 2 4)

/-- The word of every instruction is the one its rule writes out (R120-R137, R160-R169). -/
def Obligations.EncodedWordsAreTheRules : Prop :=
  ∀ fd fs ft : RegIx,
    encode (.addS fd fs ft) = wordOf 0x46000000 ft fs fd ∧
    encode (.subS fd fs ft) = wordOf 0x46000001 ft fs fd ∧
    encode (.mulS fd fs ft) = wordOf 0x46000002 ft fs fd ∧
    encode (.divS fd fs ft) = wordOf 0x46000003 ft fs fd ∧
    encode (.sqrtS fd fs) = wordOf 0x46000004 0 fs fd ∧
    encode (.absS fd fs) = wordOf 0x46000005 0 fs fd ∧
    encode (.movS fd fs) = wordOf 0x46000006 0 fs fd ∧
    encode (.negS fd fs) = wordOf 0x46000007 0 fs fd ∧
    encode (.cvtDS fd fs) = wordOf 0x46000021 0 fs fd ∧
    encode (.cvtWS fd fs) = wordOf 0x46000024 0 fs fd ∧
    encode (.cvtLS fd fs) = wordOf 0x46000025 0 fs fd ∧
    encode (.addD fd fs ft) = wordOf 0x46200000 ft fs fd ∧
    encode (.subD fd fs ft) = wordOf 0x46200001 ft fs fd ∧
    encode (.mulD fd fs ft) = wordOf 0x46200002 ft fs fd ∧
    encode (.divD fd fs ft) = wordOf 0x46200003 ft fs fd ∧
    encode (.sqrtD fd fs) = wordOf 0x46200004 0 fs fd ∧
    encode (.absD fd fs) = wordOf 0x46200005 0 fs fd ∧
    encode (.movD fd fs) = wordOf 0x46200006 0 fs fd ∧
    encode (.negD fd fs) = wordOf 0x46200007 0 fs fd ∧
    encode (.cvtSD fd fs) = wordOf 0x46200020 0 fs fd ∧
    encode (.cvtWD fd fs) = wordOf 0x46200024 0 fs fd ∧
    encode (.cvtLD fd fs) = wordOf 0x46200025 0 fs fd ∧
    encode (.cvtSW fd fs) = wordOf 0x46800020 0 fs fd ∧
    encode (.cvtDW fd fs) = wordOf 0x46800021 0 fs fd ∧
    encode (.cvtSL fd fs) = wordOf 0x46A00020 0 fs fd ∧
    encode (.cvtDL fd fs) = wordOf 0x46A00021 0 fs fd

/-- Decoding an instruction's encoding gives it back, by the unit's dispatch and by the whole-word decoder. -/
def Obligations.DecodeOfEncodeIsTheInstruction : Prop :=
  ∀ i : Instr, unitDecode (fmtOf i) (encode i) = some i ∧ decodeTableWord 32 (encode i).toNat = some i

/-- A word that decodes to `i` is the encoding of `i`, but for `ft` where the instruction does not read it (R91). -/
def Obligations.DecodedWordIsTheEncoding : Prop :=
  ∀ (w : Word32) (i : Instr), decodeTableWord 32 w.toNat = some i →
    encode i = if readsFt i then w else w &&& 0xFFE0FFFF

/-- R83, R91: bits 31:21 change neither the handler nor, for a defined entry, what it does; nor does `ft` of a
unary instruction or a conversion. -/
def Obligations.UnreadBitsHaveNoEffect : Prop :=
  ∀ (fmt : Fmt) (x y : Word32),
    (x.setWidth 21 = y.setWidth 21 →
      unitDecode fmt x = unitDecode fmt y ∧
      (Defined fmt x → ∀ pcx pcy s, execute fmt x pcx s = execute fmt y pcy s)) ∧
    (x.setWidth 16 = y.setWidth 16 → ∀ i, unitDecode fmt x = some i → readsFt i = false →
      unitDecode fmt y = some i)

/-- R86-R90: the pairs with an instruction are exactly the listed ones, in each format. -/
def Obligations.DefinedEntriesAreTheListedOnes : Prop :=
  ∀ fmt instr, (∃ i, unitDecode fmt instr = some i) ↔ Defined fmt instr

/-- R190: an undefined entry appends one critical event with the word and `(pc_in - 4) mod 2^PC_WIDTH`, and
changes nothing else. -/
def Obligations.UnknownOpcodeOnlyReports : Prop :=
  ∀ s fmt instr pcIn rest, s.inputs = .execute fmt instr pcIn :: rest → ¬ Defined fmt instr →
    ∃ a, a < 2 ^ s.params.pcWidth ∧
      (a + 4) % 2 ^ s.params.pcWidth = pcIn % 2 ^ s.params.pcWidth ∧
      (Diag.unknownOpcode instr a).severity = .critical ∧
      step s = .next { s with inputs := rest, diags := s.diags ++ [.unknownOpcode instr a] }

/-! ## Steps and instructions -/

/-- A step with `execute` pending runs the instruction that the word decodes to, on the state without that
transaction. -/
def Obligations.StepRunsTheDecodedInstruction : Prop :=
  ∀ s fmt instr pcIn rest i, s.inputs = .execute fmt instr pcIn :: rest → unitDecode fmt instr = some i →
    step s = exec i { s with inputs := rest }

/-- An encoded instruction placed as the next word is what the next step runs, whatever else is pending. -/
def Obligations.PlacedWordRunsNext : Prop :=
  ∀ s i, step (s.withFetchWord 32 (encode i).toNat) = exec i s

/-- Every step completes (R15, R199), takes at most the oldest transaction off the queue (R69), returns at most one
value, and leaves the parameters alone. With nothing pending the state stays (the model's choice, assumption 2). -/
def Obligations.EveryStepCompletes : Prop :=
  ∀ s, ∃ t, step s = .next t ∧ t.inputs = s.inputs.tail ∧ t.params = s.params ∧
    (t.replies = s.replies ∨ ∃ r, t.replies = s.replies ++ [r]) ∧ (s.inputs = [] → t = s)

/-- Every instruction completes on every state, and changes no slot but its destination's: slot `fd`, or in Half
mode the even slot of the pair of an odd `fd` (R113, R154). -/
def Obligations.InstructionsChangeOnlyTheirDestination : Prop :=
  ∀ i s, ∃ t, exec i s = .next t ∧ RestKept s t ∧
    (t.draws = s.draws ∨ t.draws = s.draws + 1) ∧
    ∀ j, t.slot j ≠ s.slot j → j = fdOf i ∨ (s.full = false ∧ (fdOf i).toNat % 2 = 1 ∧ j = fdOf i - 1)

/-! ## Results of the instructions -/

/-- add.s, sub.s, mul.s, div.s (R120-R123): the result, its place and the frame. -/
def Obligations.SingleBinaryResults : Prop :=
  ∀ s fd fs ft,
    SetsSingle (.addS fd fs ft) s fd (fmtS.fadd .addS (single s fs) (single s ft)) ∧
    SetsSingle (.subS fd fs ft) s fd (fmtS.fsub .subS (single s fs) (single s ft)) ∧
    SetsSingle (.mulS fd fs ft) s fd (fmtS.fmul .mulS (single s fs) (single s ft)) ∧
    SetsSingle (.divS fd fs ft) s fd (fmtS.fdiv .divS (single s fs) (single s ft))

/-- sqrt.s, abs.s, mov.s, neg.s (R124-R127): the result, its place and the frame. -/
def Obligations.SingleUnaryResults : Prop :=
  ∀ s fd fs,
    SetsSingle (.sqrtS fd fs) s fd (fmtS.fsqrt .sqrtS (single s fs)) ∧
    SetsSingle (.absS fd fs) s fd (single s fs &&& 0x7FFFFFFF) ∧
    SetsSingle (.movS fd fs) s fd (single s fs) ∧
    SetsSingle (.negS fd fs) s fd (single s fs ^^^ 0x80000000)

/-- add.d, sub.d, mul.d, div.d (R130-R133). -/
def Obligations.DoubleBinaryResults : Prop :=
  ∀ s fd fs ft,
    SetsDouble (.addD fd fs ft) s fd (fmtD.fadd .addD (s.slot fs) (s.slot ft)) ∧
    SetsDouble (.subD fd fs ft) s fd (fmtD.fsub .subD (s.slot fs) (s.slot ft)) ∧
    SetsDouble (.mulD fd fs ft) s fd (fmtD.fmul .mulD (s.slot fs) (s.slot ft)) ∧
    SetsDouble (.divD fd fs ft) s fd (fmtD.fdiv .divD (s.slot fs) (s.slot ft))

/-- sqrt.d, abs.d, mov.d, neg.d (R134-R137). -/
def Obligations.DoubleUnaryResults : Prop :=
  ∀ s fd fs,
    SetsDouble (.sqrtD fd fs) s fd (fmtD.fsqrt .sqrtD (s.slot fs)) ∧
    SetsDouble (.absD fd fs) s fd (s.slot fs &&& 0x7FFFFFFFFFFFFFFF) ∧
    SetsDouble (.movD fd fs) s fd (s.slot fs) ∧
    SetsDouble (.negD fd fs) s fd (s.slot fs ^^^ 0x8000000000000000)

/-- cvt.s.d, cvt.s.w, cvt.s.l (R160-R162). A 32-bit integer source follows the mode, whatever `SINGLE_VIEW` (R150). -/
def Obligations.ConversionsToSingleResults : Prop :=
  ∀ s fd fs,
    SetsSingle (.cvtSD fd fs) s fd (fmtD.toFloat fmtS .cvtSD (s.slot fs)) ∧
    SetsSingle (.cvtSW fd fs) s fd (fmtS.ofInteger (reg32 s.full s fs).toInt) ∧
    SetsSingle (.cvtSL fd fs) s fd (fmtS.ofInteger (s.slot fs).toInt)

/-- cvt.d.s, cvt.d.w, cvt.d.l (R163-R165). -/
def Obligations.ConversionsToDoubleResults : Prop :=
  ∀ s fd fs,
    SetsDouble (.cvtDS fd fs) s fd (fmtS.toFloat fmtD .cvtDS (single s fs)) ∧
    SetsDouble (.cvtDW fd fs) s fd (fmtD.ofInteger (reg32 s.full s fs).toInt) ∧
    SetsDouble (.cvtDL fd fs) s fd (fmtD.ofInteger (s.slot fs).toInt)

/-- cvt.w.s, cvt.w.d (R166, R167): the truncated value where it fits, else one draw of the free value
`CVT_INVALID`; the destination follows the mode, whatever `SINGLE_VIEW` (R150). -/
def Obligations.ConversionsToWordResults : Prop :=
  ∀ s fd fs,
    (∃ t, exec (.cvtWS fd fs) s = .next t ∧ RestKept s t ∧
      (∀ v, fmtS.toInteger 32 (single s fs) = some v → Wrote32 s.full s t fd v ∧ t.draws = s.draws) ∧
      (fmtS.toInteger 32 (single s fs) = none →
        Wrote32 s.full s t fd (Config.cvtInvalid s.draws .S 32 (single s fs)) ∧ t.draws = s.draws + 1)) ∧
    (∃ t, exec (.cvtWD fd fs) s = .next t ∧ RestKept s t ∧
      (∀ v, fmtD.toInteger 32 (s.slot fs) = some v → Wrote32 s.full s t fd v ∧ t.draws = s.draws) ∧
      (fmtD.toInteger 32 (s.slot fs) = none →
        Wrote32 s.full s t fd (Config.cvtInvalid s.draws .D 32 (s.slot fs)) ∧ t.draws = s.draws + 1))

/-- cvt.l.s, cvt.l.d (R168, R169): as `ConversionsToWordResults`, into a whole slot. -/
def Obligations.ConversionsToLongResults : Prop :=
  ∀ s fd fs,
    (∃ t, exec (.cvtLS fd fs) s = .next t ∧ RestKept s t ∧
      (∀ v, fmtS.toInteger 64 (single s fs) = some v → Wrote64 s t fd v ∧ t.draws = s.draws) ∧
      (fmtS.toInteger 64 (single s fs) = none →
        Wrote64 s t fd (Config.cvtInvalid s.draws .S 64 (single s fs)) ∧ t.draws = s.draws + 1)) ∧
    (∃ t, exec (.cvtLD fd fs) s = .next t ∧ RestKept s t ∧
      (∀ v, fmtD.toInteger 64 (s.slot fs) = some v → Wrote64 s t fd v ∧ t.draws = s.draws) ∧
      (fmtD.toInteger 64 (s.slot fs) = none →
        Wrote64 s t fd (Config.cvtInvalid s.draws .D 64 (s.slot fs)) ∧ t.draws = s.draws + 1))

/-- In Half mode, under `ModeDependent`, sources are read before the destination that overlaps them is written
(R225, derived by the spec): a single written over half of its own double source, and a double written over its own single source. -/
def Obligations.OverlappingOperandsAreReadFirst : Prop :=
  ∀ s (k : RegIx), s.full = false → s.params.singleView = .modeDependent → k.toNat % 2 = 0 →
    (∃ t, exec (.cvtSD (k + 1) k) s = .next t ∧
      t.slot k = fmtD.toFloat fmtS .cvtSD (s.slot k) ++ (s.slot k).extractLsb' 0 32) ∧
    (∃ t, exec (.cvtDS k (k + 1)) s = .next t ∧
      t.slot k = fmtS.toFloat fmtD .cvtDS ((s.slot k).extractLsb' 32 32)) ∧
    (∃ t, exec (.addS (k + 1) (k + 1) k) s = .next t ∧
      t.slot k = fmtS.fadd .addS ((s.slot k).extractLsb' 32 32) ((s.slot k).extractLsb' 0 32)
        ++ (s.slot k).extractLsb' 0 32)

/-! ## The arithmetic itself -/

/-- R6: every value of `NAN_POLICY` is a NaN of its format, whatever the free choice. -/
def Obligations.NanPolicyGivesNaNs : Prop :=
  ∀ op operands, binary32.NaN (nanS op operands) ∧ binary64.NaN (nanD op operands)

/-- R114, R115: where each arithmetic operation answers a NaN, which one, and that it does nowhere else. The NaN
itself is open (D9); that `sub` hands on its operands as read is the model's choice (assumption 14). -/
def Obligations.ArithmeticNaNsAreExactlyTheListed : Prop :=
  NaNRules binary32 fmtS nanS .addS .subS .mulS .divS .sqrtS ∧
  NaNRules binary64 fmtD nanD .addD .subD .mulD .divD .sqrtD

/-- R111, R116: addition and subtraction are the IEEE operations, rounded once from the exact real result. Rounding to
nearest, ties to even, is the spec's decision D7. -/
def Obligations.AddAndSubRoundTheExactResult : Prop :=
  AddRule binary32 (fmtS.fadd .addS) ∧ AddRule binary64 (fmtD.fadd .addD) ∧
  SubRule binary32 (fmtS.fsub .subS) ∧ SubRule binary64 (fmtD.fsub .subD)

/-- R111, R116: multiplication and division likewise (D7). -/
def Obligations.MulAndDivRoundTheExactResult : Prop :=
  MulRule binary32 (fmtS.fmul .mulS) ∧ MulRule binary64 (fmtD.fmul .mulD) ∧
  DivRule binary32 (fmtS.fdiv .divS) ∧ DivRule binary64 (fmtD.fdiv .divD)

/-- R111, R116: the square root likewise, of the real square root (D7). -/
def Obligations.SqrtRoundsTheExactResult : Prop :=
  SqrtRule binary32 (fmtS.fsqrt .sqrtS) ∧ SqrtRule binary64 (fmtD.fsqrt .sqrtD)

/-- R153: single to double is exact, double to single rounds once (D7); infinities, zeros and NaNs (D9) go over as
said. -/
def Obligations.FloatToFloatConversions : Prop :=
  (∀ a : Word32,
    (binary32.NaN a → fmtS.toFloat fmtD .cvtDS a = nanD .cvtDS [a.setWidth 64]) ∧
    (binary32.Inf a → binary64.InfOf a.msb (fmtS.toFloat fmtD .cvtDS a)) ∧
    (binary32.Zero a → binary64.ZeroOf a.msb (fmtS.toFloat fmtD .cvtDS a)) ∧
    (binary32.Finite a → binary64.Finite (fmtS.toFloat fmtD .cvtDS a) ∧
      binary64.val (fmtS.toFloat fmtD .cvtDS a) = binary32.val a)) ∧
  (∀ a : Word64,
    (binary64.NaN a → fmtD.toFloat fmtS .cvtSD a = nanS .cvtSD [a]) ∧
    (binary64.Inf a → binary32.InfOf a.msb (fmtD.toFloat fmtS .cvtSD a)) ∧
    (binary64.Zero a → binary32.ZeroOf a.msb (fmtD.toFloat fmtS .cvtSD a)) ∧
    (binary64.Finite a → ¬ binary64.Zero a →
      binary32.RoundsTo (binary64.val a) (fmtD.toFloat fmtS .cvtSD a)))

/-- R152: integers of 32 and of 64 bits to single and to double. Every 32-bit integer is exact as a double, and one
of magnitude at most `2^24` is exact as a single; `2^63 - 1` becomes `2^63`. The rounding is the spec's decision D7. -/
def Obligations.IntegerToFloatConversions : Prop :=
  (∀ n : ℤ, -(2 ^ 63) ≤ n → n < 2 ^ 63 →
    IntRule binary32 fmtS.ofInteger n ∧ IntRule binary64 fmtD.ofInteger n) ∧
  (∀ n : ℤ, -(2 ^ 31) ≤ n → n < 2 ^ 31 → binary64.val (fmtD.ofInteger n) = n) ∧
  (∀ n : ℤ, |n| ≤ 2 ^ 24 → binary32.val (fmtS.ofInteger n) = n) ∧
  binary32.val (fmtS.ofInteger (2 ^ 63 - 1)) = 2 ^ 63 ∧
  binary64.val (fmtD.ofInteger (2 ^ 63 - 1)) = 2 ^ 63

/-- R151: a float-to-integer conversion truncates its exact value toward zero where that fits, and has no
value of its own elsewhere. -/
def Obligations.FloatToIntegerTruncates : Prop :=
  TruncRule binary32 32 (fmtS.toInteger 32) ∧ TruncRule binary64 32 (fmtD.toInteger 32) ∧
  TruncRule binary32 64 (fmtS.toInteger 64) ∧ TruncRule binary64 64 (fmtD.toInteger 64)

/-! ## The status register and the mode are apart from the instructions -/

/-- R46: no instruction reads or writes `fcr31`. On two states that differ only in it, an instruction ends in
states that differ only in it, each as it was. -/
def Obligations.InstructionsIgnoreTheStatusRegister : Prop :=
  ∀ i s v, ∃ t, exec i s = .next t ∧ t.fcr31 = s.fcr31 ∧
    exec i { s with fcr31 := v } = .next { t with fcr31 := v }

/-- R22, R26, R34: an instruction whose operands are all 64 bits wide does the same in both modes. -/
def Obligations.WideInstructionsIgnoreTheMode : Prop :=
  ∀ i s m, allWide i = true → ∃ t, exec i s = .next t ∧ exec i { s with full := m } = .next { t with full := m }

/-- R23: only `setAddressingMode` and `reset` change the mode. R24, R45, R46: only `writeCtl(31, ·)` and `reset`
change the status register. -/
def Obligations.OnlyTheirTransactionsChangeModeAndStatus : Prop :=
  ∀ s t, step s = .next t →
    (t.full ≠ s.full → s.inputs.head? = some .reset ∨ ∃ m, s.inputs.head? = some (.setAddressingMode m)) ∧
    (t.fcr31 ≠ s.fcr31 → s.inputs.head? = some .reset ∨ ∃ v, s.inputs.head? = some (.writeCtl 31 v))

/-- R38: `setAddressingMode(m)` sets `full` and nothing else, and setting the value it holds is no change at all
(the spec's decision D20). -/
def Obligations.SetAddressingModeSetsOnlyTheMode : Prop :=
  ∀ s m rest, s.inputs = .setAddressingMode m :: rest →
    ∃ t, step s = .next t ∧ t.full = m ∧ (∀ j, t.slot j = s.slot j) ∧ t.fcr31 = s.fcr31 ∧
      t.params = s.params ∧ t.inputs = rest ∧ t.replies = s.replies ∧ t.diags = s.diags ∧ t.draws = s.draws ∧
      (∀ i, t.r32 i = reg32 m s i) ∧ (m = s.full → t = { s with inputs := rest })

/-! ## The control space -/

/-- R42, by the bits of R45's table: what a status write stores. It is reported by the bits of R43, and that the test
is on the written value alone is the spec's decision D14. -/
def Obligations.StatusWriteStoresAndReports : Prop :=
  ∀ s v rest, s.inputs = .writeCtl 31 v :: rest →
    ∃ t, step s = .next t ∧ (∀ j, t.slot j = s.slot j) ∧ t.full = s.full ∧ t.params = s.params ∧
      t.inputs = rest ∧ t.replies = s.replies ∧ t.draws = s.draws ∧
      (∀ k, k < 32 → t.fcr31.getLsbD k = (v.getLsbD k && (decide (k ≤ 17) || k == 23 || k == 24))) ∧
      ((∃ k, v.getLsbD k = true ∧ (k ≤ 1 ∨ 7 ≤ k ∧ k ≤ 11 ∨ k = 24)) →
        t.diags = s.diags ++ [.unimplementedStatusBits v]) ∧
      ((∀ k, (k ≤ 1 ∨ 7 ≤ k ∧ k ≤ 11 ∨ k = 24) → v.getLsbD k = false) → t.diags = s.diags) ∧
      (Diag.unimplementedStatusBits v).severity = .warning

/-- R40, R41, R44: reads of the control space, and writes of its undefined indices. -/
def Obligations.ControlReadsAndUndefinedIndices : Prop :=
  ∀ s rest,
    (s.inputs = .readCtl 31 :: rest →
      step s = .next { s with inputs := rest, replies := s.replies ++ [.bits32 s.fcr31] }) ∧
    (∀ c, c ≠ 31 → s.inputs = .readCtl c :: rest →
      (Diag.invalidControlRead c).severity = .warning ∧
      step s = .next { s with
        inputs := rest, replies := s.replies ++ [.bits32 0], diags := s.diags ++ [.invalidControlRead c] }) ∧
    (∀ c v, c ≠ 31 → s.inputs = .writeCtl c v :: rest →
      (Diag.invalidControlWrite c v).severity = .warning ∧
      step s = .next { s with inputs := rest, diags := s.diags ++ [.invalidControlWrite c v] })

/-! ## Register access -/

/-- R26, R27: 64-bit access goes to its slot directly, in both modes. -/
def Obligations.Access64IsDirect : Prop :=
  ∀ s i v rest,
    (s.inputs = .read64 i :: rest →
      step s = .next { s with inputs := rest, replies := s.replies ++ [.bits64 (s.slot i)] }) ∧
    (s.inputs = .write64 i v :: rest →
      ∃ t, step s = .next t ∧ Wrote64 s t i v ∧ RestKept { s with inputs := rest } t ∧ t.draws = s.draws)

/-- R28-R31: 32-bit access by the table of R32: in Full mode the low half of its slot, in Half mode half of the even
slot of its pair. A write keeps the other half (the spec's decision D2 in Full mode, derived by R31 in Half mode). -/
def Obligations.Access32FollowsTheMode : Prop :=
  ∀ s i v rest,
    (s.inputs = .read32 i :: rest →
      step s = .next { s with inputs := rest, replies := s.replies ++ [.bits32 (reg32 s.full s i)] }) ∧
    (s.inputs = .write32 i v :: rest →
      ∃ t, step s = .next t ∧ Wrote32 s.full s t i v ∧ RestKept { s with inputs := rest } t ∧ t.draws = s.draws)

/-- R32: distinct indices never alias; in Half mode no 32-bit access reaches an odd slot, and in Full mode none
reaches the high half of any slot. -/
def Obligations.Indices32AreDistinctStorage : Prop :=
  (∀ (s : State) (i j : RegIx) (v : Word32), (s.w32 i v).r32 j = if j = i then v else s.r32 j) ∧
  (∀ (s : State) (i : RegIx) (v : Word32) (k : RegIx), s.full = false → k.toNat % 2 = 1 →
    (s.w32 i v).slot k = s.slot k ∧ ∀ u : Word64, (s.setSlot k u).r32 i = s.r32 i) ∧
  (∀ (s : State) (i : RegIx) (v : Word32) (k : RegIx), s.full = true →
    half ((s.w32 i v).slot k) true = half (s.slot k) true ∧
    ∀ u : Word32, (s.setSlot k (u ++ half (s.slot k) false)).r32 i = s.r32 i)

/-- R64, derived by the spec: what a read sees after a write of another width. -/
def Obligations.MixedWidthAccess : Prop :=
  (∀ (s : State) (i : RegIx) (v : Word64), (s.w64 i v).r64 i = v) ∧
  (∀ (s : State) (i : RegIx) (v : Word64), s.full = true → (s.w64 i v).r32 i = v.extractLsb' 0 32) ∧
  (∀ (s : State) (i : RegIx) (a : Word32), s.full = true → (s.w32 i a).r64 i = (s.slot i).extractLsb' 32 32 ++ a) ∧
  ∀ (s : State) (k : RegIx), s.full = false → k.toNat % 2 = 0 →
    (∀ v : Word64, (s.w64 k v).r32 k = v.extractLsb' 0 32 ∧ (s.w64 k v).r32 (k + 1) = v.extractLsb' 32 32) ∧
    (∀ v : Word64, (s.w64 (k + 1) v).r32 (k + 1) = (s.slot k).extractLsb' 32 32) ∧
    (∀ b : Word32, (s.w32 (k + 1) b).r64 (k + 1) = s.slot (k + 1)) ∧
    (∀ a b : Word32, ((s.w32 k a).w32 (k + 1) b).r64 k = b ++ a)

/-- R36: a pattern written through one view is what another view of the same width reads of the same storage. -/
def Obligations.ViewsShareTheirStorage : Prop :=
  (∀ (s : State) (i : RegIx) (c : Word32) (b : Word64),
    (s.writeFS i c).readFS i = c ∧ (s.writeFD i b).readFD i = b ∧ (s.writeFD i b).r64 i = b ∧
    (s.w64 i b).readFD i = b ∧ (s.w64 i b).readL i = b.toInt) ∧
  (∀ (s : State) (i : RegIx) (b : Word32), s.params.singleView = .modeDependent →
    (s.writeFS i b).r32 i = b ∧ (s.w32 i b).readFS i = b ∧ (s.w32 i b).readW i = b.toInt) ∧
  (∀ (s : State) (i : RegIx) (b : Word32), s.params.singleView = .directLow → s.full = true ∨ i.toNat % 2 = 0 →
    (s.writeFS i b).r32 i = b ∧ (s.w32 i b).readFS i = b)

/-- R37, derived by the spec: in Half mode a double is the two singles of its pair; in Full mode its low half is the single. -/
def Obligations.DoublesAreMadeOfSingles : Prop :=
  (∀ (s : State) (k : RegIx), s.full = false → s.params.singleView = .modeDependent → k.toNat % 2 = 0 →
    s.readFD k = s.readFS (k + 1) ++ s.readFS k) ∧
  (∀ (s : State) (i : RegIx), s.full = true → (s.readFD i).extractLsb' 0 32 = s.readFS i)

/-- R68: a read changes no state of the unit, and has no effect but the one event of an undefined control index.
The value it returns depends on that state alone, so a repeated read returns it until a write intervenes. -/
def Obligations.ReadsAreIdempotent : Prop :=
  ∀ s rd rest, (∃ i, rd = .read32 i) ∨ (∃ i, rd = .read64 i) ∨ (∃ c, rd = .readCtl c) →
    s.inputs = rd :: rest →
    ∃ t r, step s = .next t ∧ t.replies = s.replies ++ [r] ∧
      (∀ j, t.slot j = s.slot j) ∧ t.full = s.full ∧ t.fcr31 = s.fcr31 ∧
      ((∀ c, c ≠ 31 → rd ≠ .readCtl c) → t.diags = s.diags) ∧
      (∀ c, c ≠ 31 → rd = .readCtl c → ∃ e, t.diags = s.diags ++ [e]) ∧
      ∀ u rest', (∀ j, u.slot j = s.slot j) → u.full = s.full → u.fcr31 = s.fcr31 → u.inputs = rd :: rest' →
        ∃ v, step u = .next v ∧ v.replies = u.replies ++ [r]

/-! ## Diagnostics -/

/-- R195, derived by the spec from R190 and R40-R44: the events of each transaction, exactly. -/
def Obligations.DiagnosticsPerTransaction : Prop :=
  ∀ s t tr rest, s.inputs = tr :: rest → step s = .next t →
    ∃ new, t.diags = s.diags ++ new ∧ new.length ≤ 1 ∧ expectedDiags s tr new

/-- R194: the output is append-only, and nothing in it affects any later result. -/
def Obligations.DiagnosticsAreNeverRead : Prop :=
  ∀ s ds, ∃ t new, step s = .next t ∧ t.diags = s.diags ++ new ∧
    step { s with diags := ds } = .next { t with diags := ds ++ new }

/-! ## Invariant -/

/-- R45, R194: the reserved bits of `fcr31` read 0, and every event's data are those of its kind, after every step
from every state where they are. -/
def Obligations.EveryStepKeepsTheInvariant : Prop :=
  ∀ s t, s.Inv → step s = .next t → t.Inv

/-- The invariant holds at reset. -/
def Obligations.InvariantHoldsAtReset : Prop := State.reset.Inv
end

