-- ==== Sys2Proof/Laws/State.lean ====
section
/-! SUPPORT. One lemma per field and update of State, and the fields of the reset state. -/

namespace Sys2Proof.Machine

section
variable (s : State) (i : RegIx) (v : Word64)
@[simp] theorem State.setSlot_f : (s.setSlot i v).f = s.f.set i.toNat v i.isLt := rfl
@[simp] theorem State.setSlot_full : (s.setSlot i v).full = s.full := rfl
@[simp] theorem State.setSlot_fcr31 : (s.setSlot i v).fcr31 = s.fcr31 := rfl
@[simp] theorem State.setSlot_params : (s.setSlot i v).params = s.params := rfl
@[simp] theorem State.setSlot_inputs : (s.setSlot i v).inputs = s.inputs := rfl
@[simp] theorem State.setSlot_replies : (s.setSlot i v).replies = s.replies := rfl
@[simp] theorem State.setSlot_diags : (s.setSlot i v).diags = s.diags := rfl
@[simp] theorem State.setSlot_draws : (s.setSlot i v).draws = s.draws := rfl
end

section
variable (s : State) (m : Bool)
@[simp] theorem State.setMode_f : (s.setMode m).f = s.f := rfl
@[simp] theorem State.setMode_full : (s.setMode m).full = m := rfl
@[simp] theorem State.setMode_fcr31 : (s.setMode m).fcr31 = s.fcr31 := rfl
@[simp] theorem State.setMode_params : (s.setMode m).params = s.params := rfl
@[simp] theorem State.setMode_inputs : (s.setMode m).inputs = s.inputs := rfl
@[simp] theorem State.setMode_replies : (s.setMode m).replies = s.replies := rfl
@[simp] theorem State.setMode_diags : (s.setMode m).diags = s.diags := rfl
@[simp] theorem State.setMode_draws : (s.setMode m).draws = s.draws := rfl
@[simp] theorem State.slot_setMode (j : RegIx) : (s.setMode m).slot j = s.slot j := rfl
end

section
variable (s : State) (v : Word32)
@[simp] theorem State.setStatus_f : (s.setStatus v).f = s.f := rfl
@[simp] theorem State.setStatus_full : (s.setStatus v).full = s.full := rfl
@[simp] theorem State.setStatus_fcr31 : (s.setStatus v).fcr31 = v := rfl
@[simp] theorem State.setStatus_params : (s.setStatus v).params = s.params := rfl
@[simp] theorem State.setStatus_inputs : (s.setStatus v).inputs = s.inputs := rfl
@[simp] theorem State.setStatus_replies : (s.setStatus v).replies = s.replies := rfl
@[simp] theorem State.setStatus_diags : (s.setStatus v).diags = s.diags := rfl
@[simp] theorem State.setStatus_draws : (s.setStatus v).draws = s.draws := rfl
@[simp] theorem State.slot_setStatus (j : RegIx) : (s.setStatus v).slot j = s.slot j := rfl
end

section
variable (s : State) (e : Diag)
@[simp] theorem State.diag_f : (s.diag e).f = s.f := rfl
@[simp] theorem State.diag_full : (s.diag e).full = s.full := rfl
@[simp] theorem State.diag_fcr31 : (s.diag e).fcr31 = s.fcr31 := rfl
@[simp] theorem State.diag_params : (s.diag e).params = s.params := rfl
@[simp] theorem State.diag_inputs : (s.diag e).inputs = s.inputs := rfl
@[simp] theorem State.diag_replies : (s.diag e).replies = s.replies := rfl
@[simp] theorem State.diag_diags : (s.diag e).diags = s.diags ++ [e] := rfl
@[simp] theorem State.diag_draws : (s.diag e).draws = s.draws := rfl
@[simp] theorem State.slot_diag (j : RegIx) : (s.diag e).slot j = s.slot j := rfl
end

section
variable (s : State) (r : Reply)
@[simp] theorem State.reply_f : (s.reply r).f = s.f := rfl
@[simp] theorem State.reply_full : (s.reply r).full = s.full := rfl
@[simp] theorem State.reply_fcr31 : (s.reply r).fcr31 = s.fcr31 := rfl
@[simp] theorem State.reply_params : (s.reply r).params = s.params := rfl
@[simp] theorem State.reply_inputs : (s.reply r).inputs = s.inputs := rfl
@[simp] theorem State.reply_replies : (s.reply r).replies = s.replies ++ [r] := rfl
@[simp] theorem State.reply_diags : (s.reply r).diags = s.diags := rfl
@[simp] theorem State.reply_draws : (s.reply r).draws = s.draws := rfl
@[simp] theorem State.slot_reply (j : RegIx) : (s.reply r).slot j = s.slot j := rfl
end

section
variable (s : State)
@[simp] theorem State.countDraw_f : s.countDraw.f = s.f := rfl
@[simp] theorem State.countDraw_full : s.countDraw.full = s.full := rfl
@[simp] theorem State.countDraw_fcr31 : s.countDraw.fcr31 = s.fcr31 := rfl
@[simp] theorem State.countDraw_params : s.countDraw.params = s.params := rfl
@[simp] theorem State.countDraw_inputs : s.countDraw.inputs = s.inputs := rfl
@[simp] theorem State.countDraw_replies : s.countDraw.replies = s.replies := rfl
@[simp] theorem State.countDraw_diags : s.countDraw.diags = s.diags := rfl
@[simp] theorem State.countDraw_draws : s.countDraw.draws = s.draws + 1 := rfl
@[simp] theorem State.slot_countDraw (j : RegIx) : s.countDraw.slot j = s.slot j := rfl
end

section
variable (s : State) (ts : List Transaction)
@[simp] theorem State.setInputs_f : (s.setInputs ts).f = s.f := rfl
@[simp] theorem State.setInputs_full : (s.setInputs ts).full = s.full := rfl
@[simp] theorem State.setInputs_fcr31 : (s.setInputs ts).fcr31 = s.fcr31 := rfl
@[simp] theorem State.setInputs_params : (s.setInputs ts).params = s.params := rfl
@[simp] theorem State.setInputs_inputs : (s.setInputs ts).inputs = ts := rfl
@[simp] theorem State.setInputs_replies : (s.setInputs ts).replies = s.replies := rfl
@[simp] theorem State.setInputs_diags : (s.setInputs ts).diags = s.diags := rfl
@[simp] theorem State.setInputs_draws : (s.setInputs ts).draws = s.draws := rfl
@[simp] theorem State.slot_setInputs (j : RegIx) : (s.setInputs ts).slot j = s.slot j := rfl
end

section
variable (s : State)
@[simp] theorem State.resetUnit_f : s.resetUnit.f = Vector.replicate 32 0#64 := rfl
@[simp] theorem State.resetUnit_full : s.resetUnit.full = false := rfl
@[simp] theorem State.resetUnit_fcr31 : s.resetUnit.fcr31 = 0#32 := rfl
@[simp] theorem State.resetUnit_params : s.resetUnit.params = s.params := rfl
@[simp] theorem State.resetUnit_inputs : s.resetUnit.inputs = s.inputs := rfl
@[simp] theorem State.resetUnit_replies : s.resetUnit.replies = s.replies := rfl
@[simp] theorem State.resetUnit_diags : s.resetUnit.diags = s.diags := rfl
@[simp] theorem State.resetUnit_draws : s.resetUnit.draws = s.draws := rfl
end

@[simp] theorem State.reset_full : State.reset.full = false := rfl
@[simp] theorem State.reset_fcr31 : State.reset.fcr31 = 0#32 := rfl
@[simp] theorem State.reset_params : State.reset.params = Params.default := rfl
@[simp] theorem State.reset_inputs : State.reset.inputs = [] := rfl
@[simp] theorem State.reset_replies : State.reset.replies = [] := rfl
@[simp] theorem State.reset_diags : State.reset.diags = [] := rfl
@[simp] theorem State.reset_draws : State.reset.draws = 0 := rfl

/-- Two states with the same slots and the same other fields are the same state. -/
theorem State.ext_slots {s t : State} (hf : ∀ j, s.slot j = t.slot j) (h1 : s.full = t.full)
    (h2 : s.fcr31 = t.fcr31) (h3 : s.params = t.params) (h4 : s.inputs = t.inputs)
    (h5 : s.replies = t.replies) (h6 : s.diags = t.diags) (h7 : s.draws = t.draws) : s = t := by
  have : s.f = t.f := by
    apply Vector.ext
    intro i hi
    have := hf (BitVec.ofNat 5 i)
    have e : (BitVec.ofNat 5 i).toNat = i := by simp; omega
    simpa [State.slot, e] using this
  cases s; cases t; simp_all

/-- A slot after a slot was written: the written value there, the old value elsewhere (R20). -/
@[simp] theorem State.slot_setSlot (s : State) (i j : RegIx) (v : Word64) :
    (s.setSlot i v).slot j = if j = i then v else s.slot j := by
  by_cases h : j = i
  · subst h; simp [State.slot, State.setSlot]
  · have : i.toNat ≠ j.toNat := fun e => h (BitVec.eq_of_toNat_eq e.symm)
    simp [State.slot, State.setSlot, this, h]

@[simp] theorem State.slot_resetUnit (s : State) (j : RegIx) : s.resetUnit.slot j = 0#64 := by
  simp [State.slot]

@[simp] theorem State.slot_reset (j : RegIx) : State.reset.slot j = 0#64 := by
  simp [State.slot, State.reset]

end Sys2Proof.Machine
end

