-- ==== Sys2Proof/Laws/Access.lean ====
section
/-! SUPPORT. What the access operations do: halves, addresses, reads after writes, frames. -/

namespace Sys2Proof.Machine

/-! ## Halves -/

@[simp] theorem loHalf_joinHalves (hi lo : Word32) : loHalf (joinHalves hi lo) = lo := by
  ext i hi'
  simp only [loHalf, joinHalves, BitVec.getElem_extractLsb', BitVec.getLsbD_append]
  simp [hi', BitVec.getLsbD_eq_getElem]

@[simp] theorem hiHalf_joinHalves (hi lo : Word32) : hiHalf (joinHalves hi lo) = hi := by
  ext i hi'
  simp only [hiHalf, joinHalves, BitVec.getElem_extractLsb', BitVec.getLsbD_append]
  simp [hi', BitVec.getLsbD_eq_getElem]

@[simp] theorem joinHalves_halves (v : Word64) : joinHalves (hiHalf v) (loHalf v) = v := by
  apply BitVec.eq_of_getLsbD_eq
  intro i hi'
  simp only [joinHalves, hiHalf, loHalf, BitVec.getLsbD_append, BitVec.getLsbD_extractLsb']
  by_cases h : i < 32
  · simp [h]
  · have e : 32 + (i - 32) = i := by omega
    simp [h, e]
    omega

/-- Halves determine a slot. -/
theorem slot_eq_of_halves {v u : Word64} (h1 : hiHalf v = hiHalf u) (h2 : loHalf v = loHalf u) : v = u := by
  rw [← joinHalves_halves v, ← joinHalves_halves u, h1, h2]

/-! ## Addresses (R32) -/

theorem evenSlot_even {i : RegIx} (h : i.getLsbD 0 = false) : evenSlot i = i := by
  revert h; revert i; decide

theorem evenSlot_odd {i : RegIx} (h : i.getLsbD 0 = true) : evenSlot i = i - 1 := by
  revert h; revert i; decide

@[simp] theorem addr32_full (i : RegIx) : addr32 true i = (i, false) := rfl

@[simp] theorem addr32_half (i : RegIx) : addr32 false i = (evenSlot i, i.getLsbD 0) := rfl

/-- No two distinct indices name the same storage, in either mode (R32). -/
theorem addr32_injective (full : Bool) : ∀ i j, addr32 full i = addr32 full j → i = j := by
  cases full <;> decide

/-! ## One half of a slot -/

/-- Everything a half-slot write does: the addressed half takes the value, every other half keeps its own. -/
theorem State.readHalf_writeHalf (s : State) (a b : RegIx × Bool) (v : Word32) :
    (s.writeHalf a v).readHalf b = if b = a then v else s.readHalf b := by
  obtain ⟨i, hi⟩ := a
  obtain ⟨j, hj⟩ := b
  by_cases h : j = i
  · subst h
    cases hi <;> cases hj <;> simp [State.readHalf, State.writeHalf]
  · simp [State.readHalf, State.writeHalf, h]

/-- A half-slot write as a change of slots. -/
theorem State.slot_writeHalf (s : State) (i : RegIx) (high : Bool) (v : Word32) (j : RegIx) :
    (s.writeHalf (i, high) v).slot j =
      if j = i then
        (if high then joinHalves v (loHalf (s.slot i)) else joinHalves (hiHalf (s.slot i)) v)
      else s.slot j := by
  cases high <;> simp [State.writeHalf]

section
variable (s : State) (a : RegIx × Bool) (v : Word32)
@[simp] theorem State.writeHalf_full : (s.writeHalf a v).full = s.full := rfl
@[simp] theorem State.writeHalf_fcr31 : (s.writeHalf a v).fcr31 = s.fcr31 := rfl
@[simp] theorem State.writeHalf_params : (s.writeHalf a v).params = s.params := rfl
@[simp] theorem State.writeHalf_inputs : (s.writeHalf a v).inputs = s.inputs := rfl
@[simp] theorem State.writeHalf_replies : (s.writeHalf a v).replies = s.replies := rfl
@[simp] theorem State.writeHalf_diags : (s.writeHalf a v).diags = s.diags := rfl
@[simp] theorem State.writeHalf_draws : (s.writeHalf a v).draws = s.draws := rfl
end

/-! ## 32-bit, single, 64-bit and double access -/

theorem State.r32_w32 (s : State) (i j : RegIx) (v : Word32) :
    (s.w32 i v).r32 j = if j = i then v else s.r32 j := by
  simp only [State.r32, State.w32, State.readHalf_writeHalf, State.writeHalf_full]
  by_cases h : j = i
  · simp [h]
  · have : addr32 s.full j ≠ addr32 s.full i := fun e => h (addr32_injective _ _ _ e)
    simp [h, this]

theorem State.r64_w64 (s : State) (i j : RegIx) (v : Word64) :
    (s.w64 i v).r64 j = if j = i then v else s.r64 j := by
  simp [State.r64, State.w64]

/-- `singleAddr` is `addr32` in the mode that the single view follows (R33). -/
theorem State.singleAddr_eq (s : State) (i : RegIx) :
    s.singleAddr i = addr32 (s.full || s.params.singleView = .directLow) i := by
  cases h : s.params.singleView <;> simp [State.singleAddr, h]

@[simp] theorem State.singleAddr_writeHalf (s : State) (a : RegIx × Bool) (v : Word32) (i : RegIx) :
    (s.writeHalf a v).singleAddr i = s.singleAddr i := rfl

theorem State.readFS_writeFS (s : State) (i j : RegIx) (b : Word32) :
    (s.writeFS i b).readFS j = if j = i then b else s.readFS j := by
  simp only [State.readFS, State.writeFS, State.readHalf_writeHalf, State.singleAddr_writeHalf]
  by_cases h : j = i
  · simp [h]
  · have : s.singleAddr j ≠ s.singleAddr i := fun e => by
      rw [State.singleAddr_eq, State.singleAddr_eq] at e
      exact h (addr32_injective _ _ _ e)
    simp [h, this]

theorem State.readFD_writeFD (s : State) (i j : RegIx) (b : Word64) :
    (s.writeFD i b).readFD j = if j = i then b else s.readFD j := State.r64_w64 s i j b

/-- What every register write leaves alone, whatever view it goes by: the mode, the status register, the
parameters and the whole interface. -/
structure KeepsAllButSlots (s t : State) : Prop where
  full : t.full = s.full
  fcr31 : t.fcr31 = s.fcr31
  params : t.params = s.params
  inputs : t.inputs = s.inputs
  replies : t.replies = s.replies
  diags : t.diags = s.diags
  draws : t.draws = s.draws

theorem writeFS_keeps (s : State) (i : RegIx) (b : Word32) : KeepsAllButSlots s (s.writeFS i b) :=
  ⟨rfl, rfl, rfl, rfl, rfl, rfl, rfl⟩
theorem writeFD_keeps (s : State) (i : RegIx) (b : Word64) : KeepsAllButSlots s (s.writeFD i b) :=
  ⟨rfl, rfl, rfl, rfl, rfl, rfl, rfl⟩
theorem w32_keeps (s : State) (i : RegIx) (b : Word32) : KeepsAllButSlots s (s.w32 i b) :=
  ⟨rfl, rfl, rfl, rfl, rfl, rfl, rfl⟩
theorem w64_keeps (s : State) (i : RegIx) (b : Word64) : KeepsAllButSlots s (s.w64 i b) :=
  ⟨rfl, rfl, rfl, rfl, rfl, rfl, rfl⟩

/-! ## The control space -/

/-- Everything a control write does (R42-R44). -/
theorem State.writeCtl_cases (s : State) (c : CtlIx) (v : Word32) :
    (c = 31#5 ∧ statusReported v = true ∧
      s.writeCtl c v = (s.setStatus (statusStored v)).diag (.unimplementedStatusBits v)) ∨
    (c = 31#5 ∧ statusReported v = false ∧ s.writeCtl c v = s.setStatus (statusStored v)) ∨
    (c ≠ 31#5 ∧ s.writeCtl c v = s.diag (.invalidControlWrite c v)) := by
  unfold State.writeCtl statusIndex
  by_cases h : c = 31#5
  · cases h' : statusReported v <;> simp [h]
  · simp [h]

/-- Everything a control read does (R40, R41). -/
theorem State.readCtl_cases (s : State) (c : CtlIx) :
    (c = 31#5 ∧ s.readCtl c = (s.fcr31, s)) ∨
    (c ≠ 31#5 ∧ s.readCtl c = (0#32, s.diag (.invalidControlRead c))) := by
  unfold State.readCtl statusIndex
  by_cases h : c = 31#5 <;> simp [h]

/-- The reported address is a value of `PC_WIDTH` bits (R8). -/
theorem diagAddress_lt (p : Params) (pcIn : Nat) : diagAddress p pcIn < 2 ^ p.pcWidth := by
  unfold diagAddress
  have hpos : (0 : Int) < ((2 ^ p.pcWidth : Nat) : Int) := by positivity
  have h1 := Int.emod_lt_of_pos ((pcIn : Int) - 4) hpos
  have h0 := Int.emod_nonneg ((pcIn : Int) - 4) hpos.ne'
  omega

end Sys2Proof.Machine
end

