-- ==== Sys2Proof/Laws/Float.lean ====
section
/-! SUPPORT. What exact comparison and rounding do (R111), in terms of the real number that is rounded. -/

namespace Sys2Proof.Machine

/-- The real number an exact magnitude stands for, in units. -/
noncomputable def Exact.toReal : Exact → ℝ
  | .ratio num den => (num : ℝ) / den
  | .root n => Real.sqrt n

/-- The denominator of an exact magnitude is not zero. -/
def Exact.proper : Exact → Prop
  | .ratio _ den => 0 < den
  | .root _ => True

theorem Exact.toReal_nonneg (r : Exact) : 0 ≤ r.toReal := by
  cases r <;> simp only [Exact.toReal] <;> positivity

/-! ## Comparison with half-units -/

/-- `cmpHalves` orders `2r` and `h` as real numbers: the three outcomes at once. -/
theorem Exact.cmpHalves_spec {r : Exact} (hr : r.proper) (h : Nat) :
    (r.cmpHalves h = .lt ↔ 2 * r.toReal < h) ∧
    (r.cmpHalves h = .eq ↔ 2 * r.toReal = h) ∧
    (r.cmpHalves h = .gt ↔ (h : ℝ) < 2 * r.toReal) := by
  cases r with
  | ratio num den =>
    have hd : (0 : ℝ) < den := by exact_mod_cast hr
    have e : 2 * ((num : ℝ) / den) = (2 * num : ℕ) / den := by push_cast; ring
    simp only [Exact.cmpHalves, Exact.toReal, compare_lt_iff_lt, compare_eq_iff_eq, compare_gt_iff_gt, e,
      div_lt_iff₀ hd, div_eq_iff hd.ne', lt_div_iff₀ hd]
    exact ⟨by exact_mod_cast Iff.rfl, by exact_mod_cast Iff.rfl, by exact_mod_cast Iff.rfl⟩
  | root n =>
    have hs := Real.sqrt_nonneg (n : ℝ)
    have hq : (2 * Real.sqrt (n : ℝ)) ^ 2 = (4 * n : ℕ) := by
      rw [mul_pow, Real.sq_sqrt (Nat.cast_nonneg n)]; push_cast; ring
    have hh : (h : ℝ) ^ 2 = (h * h : ℕ) := by push_cast; ring
    have h0 : (0 : ℝ) ≤ h := Nat.cast_nonneg h
    have h2 : (0 : ℝ) ≤ 2 * Real.sqrt n := by positivity
    simp only [Exact.cmpHalves, Exact.toReal, compare_lt_iff_lt, compare_eq_iff_eq, compare_gt_iff_gt,
      ← sq_lt_sq₀ h2 h0, ← sq_lt_sq₀ h0 h2, ← sq_eq_sq₀ h2 h0, hq, hh]
    exact ⟨by exact_mod_cast Iff.rfl, by exact_mod_cast Iff.rfl, by exact_mod_cast Iff.rfl⟩

theorem Exact.atLeastHalves_iff {r : Exact} (hr : r.proper) (h : Nat) :
    r.atLeastHalves h = true ↔ (h : ℝ) ≤ 2 * r.toReal := by
  rw [← not_lt, ← (Exact.cmpHalves_spec hr h).1, Exact.atLeastHalves]
  cases r.cmpHalves h <;> decide

variable {w : Nat} (F : FloatFmt w)

/-! ## Units grow with the pattern -/

/-- From one magnitude pattern to the next the value grows by one unit in the last place. -/
theorem FloatFmt.units_succ (p : Nat) : F.units (p + 1) = F.units p + 2 ^ (p / 2 ^ F.fracBits - 1) := by
  have hB : 0 < 2 ^ F.fracBits := Nat.two_pow_pos _
  unfold FloatFmt.units
  generalize 2 ^ F.fracBits = B at hB ⊢
  have hdm := Nat.div_add_mod p B
  have hm := Nat.mod_lt p hB
  by_cases hlast : p % B + 1 = B
  · have e1 : p + 1 = B * (p / B + 1) := by rw [Nat.mul_add, Nat.mul_one]; omega
    have h1 : (p + 1) / B = p / B + 1 := by
      conv_lhs => rw [e1]
      exact Nat.mul_div_cancel_left _ hB
    have h2 : (p + 1) % B = 0 := by rw [e1]; exact Nat.mul_mod_right _ _
    simp only [h1, h2]
    rcases Nat.eq_zero_or_pos (p / B) with he | he
    · simp [he]; omega
    · obtain ⟨e, he'⟩ : ∃ e, p / B = e + 1 := ⟨p / B - 1, by omega⟩
      simp only [he']
      have : p % B = B - 1 := by omega
      simp [this, pow_succ]
      have : B + (B - 1) + 1 = B * 2 := by omega
      calc B * (2 ^ e * 2) = (B + (B - 1) + 1) * 2 ^ e := by rw [this]; ring
        _ = (B + (B - 1)) * 2 ^ e + 2 ^ e := by ring
  · have h1 : (p + 1) / B = p / B := by
      rw [Nat.div_eq_iff hB]; constructor
      · nlinarith [Nat.div_mul_le_self p B]
      · have : p / B * B = B * (p / B) := Nat.mul_comm _ _
        omega
    have h2 : (p + 1) % B = p % B + 1 := by
      rw [Nat.add_mod_eq_add_mod_right 1 (Nat.mod_mod p B).symm, Nat.mod_eq_of_lt (by omega)]
    simp only [h1, h2]
    rcases Nat.eq_zero_or_pos (p / B) with he | he
    · simp [he]
    · simp [he.ne']
      ring

theorem FloatFmt.units_strictMono : StrictMono F.units :=
  strictMono_nat_of_lt_succ fun p => by
    rw [F.units_succ p]; have := Nat.two_pow_pos (p / 2 ^ F.fracBits - 1); omega

@[simp] theorem FloatFmt.units_zero : F.units 0 = 0 := by simp [FloatFmt.units]

/-! ## Rounding -/

/-- `floorPattern` finds the pattern whose value is the last one at or below `r`. -/
theorem FloatFmt.floorPattern_spec {r : Exact} (hr : r.proper) (k acc : Nat)
    (lo : (F.units acc : ℝ) ≤ r.toReal) (hi : r.toReal < F.units (acc + 2 ^ k)) :
    (F.units (F.floorPattern r k acc) : ℝ) ≤ r.toReal ∧
      r.toReal < F.units (F.floorPattern r k acc + 1) := by
  induction k generalizing acc with
  | zero => exact ⟨lo, hi⟩
  | succ k ih =>
    unfold FloatFmt.floorPattern
    split <;> rename_i h
    · rw [Exact.atLeastHalves_iff hr] at h
      push_cast at h
      apply ih
      · linarith
      · rw [Nat.add_assoc, ← Nat.two_mul, ← pow_succ']; exact hi
    · rw [Bool.not_eq_true, ← Bool.not_eq_true, Exact.atLeastHalves_iff hr] at h
      push_cast at h
      exact ih acc lo (by linarith)

/-- A format whose overflow threshold is the midpoint of its greatest finite value and the value an infinity's
pattern would have, with an infinity's pattern in range. -/
structure FloatFmt.Sound : Prop where
  inf_pos : 0 < F.infPattern
  inf_lt : F.infPattern < 2 ^ (F.expBits + F.fracBits)
  threshold : 2 * F.overflow = F.units (F.infPattern - 1) + F.units F.infPattern

/-- `roundPattern` from the threshold on (R111(a)). -/
theorem FloatFmt.roundPattern_overflow {r : Exact} (hr : r.proper) (h : (F.overflow : ℝ) ≤ r.toReal) :
    F.roundPattern r = F.infPattern := by
  have : r.atLeastHalves (2 * F.overflow) = true := by
    rw [Exact.atLeastHalves_iff hr]; push_cast; linarith
  simp [FloatFmt.roundPattern, this]

/-- `roundPattern` below the threshold (R111(b)): a finite pattern, nearest to `r` among all patterns, and
the even one where another is as near. -/
theorem FloatFmt.roundPattern_nearest (hF : F.Sound) {r : Exact} (hr : r.proper)
    (h : r.toReal < F.overflow) :
    F.roundPattern r < F.infPattern ∧
    (∀ q : Nat, |(F.units (F.roundPattern r) : ℝ) - r.toReal| ≤ |(F.units q : ℝ) - r.toReal|) ∧
    (∀ q : Nat, q ≠ F.roundPattern r →
      |(F.units q : ℝ) - r.toReal| = |(F.units (F.roundPattern r) : ℝ) - r.toReal| →
      F.roundPattern r % 2 = 0) := by
  have hmono := F.units_strictMono
  have hthr : (2 * F.overflow : ℝ) = F.units (F.infPattern - 1) + F.units F.infPattern := by
    exact_mod_cast hF.threshold
  have hmid : F.units (F.infPattern - 1) < F.units F.infPattern := hmono (by have := hF.inf_pos; omega)
  have hmid' : (F.units (F.infPattern - 1) : ℝ) < F.units F.infPattern := by exact_mod_cast hmid
  have hinf : r.toReal < F.units F.infPattern := by linarith
  have hge : r.atLeastHalves (2 * F.overflow) = false := by
    rw [← Bool.not_eq_true, Exact.atLeastHalves_iff hr]; push_cast; linarith
  obtain ⟨lo, hi⟩ := F.floorPattern_spec hr (F.expBits + F.fracBits) 0
    (by simpa using r.toReal_nonneg)
    (lt_of_lt_of_le hinf (by
      have := hmono.monotone (Nat.le_of_lt hF.inf_lt)
      simpa using (by exact_mod_cast this : (F.units F.infPattern : ℝ) ≤ F.units (2 ^ (F.expBits + F.fracBits)))))
  set p := F.floorPattern r (F.expBits + F.fracBits) 0 with hp
  have hround : F.roundPattern r = match r.cmpHalves (F.units p + F.units (p + 1)) with
      | .lt => p | .gt => p + 1 | .eq => if p % 2 = 0 then p else p + 1 := by
    simp only [FloatFmt.roundPattern, hge, ← hp]; rfl
  have hplt : p < F.infPattern := by
    have : (F.units p : ℝ) < F.units F.infPattern := lt_of_le_of_lt lo hinf
    exact hmono.lt_iff_lt.mp (by exact_mod_cast this)
  -- every pattern lies at or below `p`, or at or above `p + 1`
  have below : ∀ q, q ≤ p → (F.units q : ℝ) ≤ F.units p := fun q hq => by
    exact_mod_cast hmono.monotone hq
  have above : ∀ q, p < q → (F.units (p + 1) : ℝ) ≤ F.units q := fun q hq => by
    exact_mod_cast hmono.monotone hq
  have strictBelow : ∀ q, q < p → (F.units q : ℝ) < F.units p := fun q hq => by exact_mod_cast hmono hq
  have strictAbove : ∀ q, p + 1 < q → (F.units (p + 1) : ℝ) < F.units q := fun q hq => by
    exact_mod_cast hmono hq
  obtain ⟨clt, ceq, cgt⟩ := Exact.cmpHalves_spec hr (F.units p + F.units (p + 1))
  push_cast at clt ceq cgt
  have dlo : ∀ q, q ≤ p → |(F.units q : ℝ) - r.toReal| = r.toReal - F.units q := fun q hq => by
    rw [abs_of_nonpos (by linarith [below q hq])]; ring
  have dhi : ∀ q, p < q → |(F.units q : ℝ) - r.toReal| = F.units q - r.toReal := fun q hq => by
    rw [abs_of_nonneg (by linarith [above q hq])]
  have lowWins : 2 * r.toReal ≤ F.units p + F.units (p + 1) →
      ∀ q : Nat, |(F.units p : ℝ) - r.toReal| ≤ |(F.units q : ℝ) - r.toReal| := fun hc q => by
    rcases Nat.lt_or_ge p q with hq | hq
    · rw [dlo p le_rfl, dhi q hq]; linarith [above q hq]
    · rw [dlo p le_rfl, dlo q hq]; linarith [below q hq]
  have highWins : (F.units p + F.units (p + 1) : ℝ) ≤ 2 * r.toReal →
      ∀ q : Nat, |(F.units (p + 1) : ℝ) - r.toReal| ≤ |(F.units q : ℝ) - r.toReal| := fun hc q => by
    rcases Nat.lt_or_ge p q with hq | hq
    · rw [dhi (p + 1) (by omega), dhi q hq]; linarith [above q hq]
    · rw [dhi (p + 1) (by omega), dlo q hq]; linarith [below q hq]
  cases hc : r.cmpHalves (F.units p + F.units (p + 1)) with
  | lt =>
    have c := clt.mp hc
    rw [hc] at hround
    simp only at hround
    rw [hround]
    refine ⟨hplt, lowWins c.le, fun q hne he => ?_⟩
    exfalso
    rcases Nat.lt_or_ge p q with hq | hq
    · rw [dlo p le_rfl, dhi q hq] at he; linarith [above q hq]
    · rw [dlo p le_rfl, dlo q hq] at he; linarith [strictBelow q (by omega)]
  | gt =>
    have c := cgt.mp hc
    rw [hc] at hround
    simp only at hround
    rw [hround]
    refine ⟨?_, highWins c.le, fun q hne he => ?_⟩
    · rcases Nat.lt_or_ge (p + 1) F.infPattern with h' | h'
      · exact h'
      · exfalso
        have : p = F.infPattern - 1 := by omega
        have h'' : p + 1 = F.infPattern := by omega
        rw [h'', this] at c
        linarith
    · exfalso
      rcases Nat.lt_or_ge p q with hq | hq
      · rw [dhi (p + 1) (by omega), dhi q hq] at he; linarith [strictAbove q (by omega)]
      · rw [dhi (p + 1) (by omega), dlo q hq] at he; linarith [below q hq]
  | eq =>
    have c := ceq.mp hc
    rw [hc] at hround
    simp only at hround
    split at hround <;> rename_i heven <;> rw [hround]
    · exact ⟨hplt, lowWins c.le, fun _ _ _ => heven⟩
    · refine ⟨?_, highWins c.ge, fun _ _ _ => by omega⟩
      rcases Nat.lt_or_ge (p + 1) F.infPattern with h' | h'
      · exact h'
      · exfalso
        have : p = F.infPattern - 1 := by omega
        have h'' : p + 1 = F.infPattern := by omega
        rw [h'', this] at c
        linarith

theorem fmtS_sound : fmtS.Sound := by
  constructor <;> decide +kernel

theorem fmtD_sound : fmtD.Sound := by
  constructor <;> decide +kernel

end Sys2Proof.Machine
end

