-- ==== Sys2Proof/Laws/Bits.lean ====
section
/-! SUPPORT. Patterns as a sign and a magnitude pattern: every class of R110 is a range of magnitude patterns. -/

namespace Sys2Proof.Machine

variable {w : Nat} (F : FloatFmt w)

/-- The widths of a format's fields make up its patterns. -/
structure FloatFmt.Fits : Prop where
  width : w = F.expBits + F.fracBits + 1
  exp_pos : 0 < F.expBits

theorem fmtS_fits : fmtS.Fits := ⟨rfl, by decide⟩
theorem fmtD_fits : fmtD.Fits := ⟨rfl, by decide⟩

variable {F}

theorem FloatFmt.Fits.two_pow_width (hF : F.Fits) : 2 ^ w = 2 ^ (F.expBits + F.fracBits) * 2 :=
  (congrArg (2 ^ ·) hF.width).trans (pow_succ _ _)

theorem FloatFmt.Fits.width_pred (hF : F.Fits) : w - 1 = F.expBits + F.fracBits := by
  have := hF.width; omega

theorem FloatFmt.magPattern_lt (a : BitVec w) : F.magPattern a < 2 ^ (F.expBits + F.fracBits) :=
  Nat.mod_lt _ (Nat.two_pow_pos _)

/-- A pattern is its sign and its magnitude pattern. -/
theorem FloatFmt.toNat_eq (hF : F.Fits) (a : BitVec w) :
    a.toNat = (if signOf a then 2 ^ (F.expBits + F.fracBits) else 0) + F.magPattern a := by
  have hlt := a.isLt
  rw [hF.two_pow_width] at hlt
  have hm : signOf a = decide (2 ^ (F.expBits + F.fracBits) ≤ a.toNat) := by
    rw [signOf, BitVec.msb_eq_decide, hF.width_pred]
  unfold FloatFmt.magPattern
  generalize 2 ^ (F.expBits + F.fracBits) = M at hlt hm
  by_cases h : M ≤ a.toNat
  · rw [hm, Nat.mod_eq_sub_mod h, Nat.mod_eq_of_lt (by omega)]; simp [h]
  · rw [hm, Nat.mod_eq_of_lt (by omega)]; simp [h]

theorem FloatFmt.toNat_pack (hF : F.Fits) (neg : Bool) {m : Nat} (hm : m < 2 ^ (F.expBits + F.fracBits)) :
    (F.pack neg m).toNat = (if neg then 2 ^ (F.expBits + F.fracBits) else 0) + m := by
  rw [FloatFmt.pack, BitVec.toNat_ofNat, hF.two_pow_width]
  apply Nat.mod_eq_of_lt
  split <;> omega

@[simp] theorem FloatFmt.magPattern_pack (hF : F.Fits) (neg : Bool) {m : Nat}
    (hm : m < 2 ^ (F.expBits + F.fracBits)) : F.magPattern (F.pack neg m) = m := by
  rw [FloatFmt.magPattern, F.toNat_pack hF neg hm]
  cases neg <;> simp [Nat.mod_eq_of_lt hm]

@[simp] theorem FloatFmt.signOf_pack (hF : F.Fits) (neg : Bool) {m : Nat}
    (hm : m < 2 ^ (F.expBits + F.fracBits)) : signOf (F.pack neg m) = neg := by
  have h1 := F.toNat_eq hF (F.pack neg m)
  rw [F.magPattern_pack hF neg hm, F.toNat_pack hF neg hm] at h1
  have := Nat.two_pow_pos (F.expBits + F.fracBits)
  cases hs : signOf (F.pack neg m) <;> cases neg <;> simp [hs] at h1 ⊢

/-- The sign and the magnitude pattern determine the pattern. -/
theorem FloatFmt.eq_of_sign_mag (hF : F.Fits) {a b : BitVec w} (hs : signOf a = signOf b)
    (hm : F.magPattern a = F.magPattern b) : a = b := by
  apply BitVec.eq_of_toNat_eq
  rw [F.toNat_eq hF a, F.toNat_eq hF b, hs, hm]

theorem FloatFmt.expField_eq (a : BitVec w) : F.expField a = F.magPattern a / 2 ^ F.fracBits := by
  rw [FloatFmt.expField, FloatFmt.magPattern, Nat.add_comm, pow_add, Nat.mod_mul_right_div_self]

theorem FloatFmt.fracField_eq (a : BitVec w) : F.fracField a = F.magPattern a % 2 ^ F.fracBits := by
  rw [FloatFmt.fracField, FloatFmt.magPattern, pow_add, Nat.mod_mul_left_mod]

theorem FloatFmt.expField_le (a : BitVec w) : F.expField a ≤ F.expOnes := by
  have : F.expField a < 2 ^ F.expBits := Nat.mod_lt _ (Nat.two_pow_pos _)
  unfold FloatFmt.expOnes; omega

/-- Exponent all ones: from the infinity's pattern on. -/
theorem FloatFmt.expField_ones_iff (a : BitVec w) :
    F.expField a = F.expOnes ↔ F.infPattern ≤ F.magPattern a := by
  have hle := F.expField_le a
  rw [FloatFmt.infPattern, ← Nat.le_div_iff_mul_le (Nat.two_pow_pos _), ← F.expField_eq]
  omega

theorem FloatFmt.fracField_zero_iff {a : BitVec w} (h : F.expField a = F.expOnes) :
    F.fracField a = 0 ↔ F.magPattern a = F.infPattern := by
  rw [F.expField_eq] at h
  have hd := Nat.div_add_mod (F.magPattern a) (2 ^ F.fracBits)
  rw [F.fracField_eq, FloatFmt.infPattern, ← h]
  constructor
  · intro h0; rw [h0] at hd; rw [Nat.mul_comm]; omega
  · intro he; rw [Nat.mul_comm] at he; omega

/-- The classes of R110 as ranges of magnitude patterns. -/
theorem FloatFmt.isNaN_iff (a : BitVec w) : F.isNaN a = true ↔ F.infPattern < F.magPattern a := by
  simp only [FloatFmt.isNaN, Bool.and_eq_true, beq_iff_eq, bne_iff_ne, ne_eq]
  constructor
  · rintro ⟨h1, h2⟩
    rw [F.fracField_zero_iff h1] at h2
    have := (F.expField_ones_iff a).mp h1
    omega
  · intro h
    have h1 := (F.expField_ones_iff a).mpr h.le
    exact ⟨h1, by rw [F.fracField_zero_iff h1]; omega⟩

theorem FloatFmt.isInf_iff (a : BitVec w) : F.isInf a = true ↔ F.magPattern a = F.infPattern := by
  simp only [FloatFmt.isInf, Bool.and_eq_true, beq_iff_eq]
  constructor
  · rintro ⟨h1, h2⟩; exact (F.fracField_zero_iff h1).mp h2
  · intro h
    have h1 := (F.expField_ones_iff a).mpr h.ge
    exact ⟨h1, (F.fracField_zero_iff h1).mpr h⟩

theorem FloatFmt.isFinite_iff (a : BitVec w) : F.isFinite a = true ↔ F.magPattern a < F.infPattern := by
  rw [FloatFmt.isFinite, bne_iff_ne, ne_eq, F.expField_ones_iff]; omega

theorem FloatFmt.isZero_iff (a : BitVec w) : F.isZero a = true ↔ F.magPattern a = 0 := by
  simp only [FloatFmt.isZero, Bool.and_eq_true, beq_iff_eq]
  rw [F.expField_eq, F.fracField_eq]
  have hd := Nat.div_add_mod (F.magPattern a) (2 ^ F.fracBits)
  constructor
  · rintro ⟨h1, h2⟩; rw [h1, h2] at hd; omega
  · intro h; simp [h]

/-- Flipping the sign bit flips the sign and keeps the magnitude pattern. -/
theorem FloatFmt.signBit_xor (hF : F.Fits) (a : BitVec w) :
    signOf (a ^^^ F.signBit) = !signOf a ∧ F.magPattern (a ^^^ F.signBit) = F.magPattern a := by
  have hw := hF.width
  have hlt : F.expBits + F.fracBits < w := by omega
  have hpow : 2 ^ (F.expBits + F.fracBits) < 2 ^ w := Nat.pow_lt_pow_right (by omega) hlt
  have hbit : ∀ i, F.signBit.getLsbD i = decide (F.expBits + F.fracBits = i) := fun i => by
    rw [FloatFmt.signBit, BitVec.getLsbD, BitVec.toNat_ofNat, Nat.mod_eq_of_lt hpow, Nat.testBit_two_pow]
  constructor
  · simp only [signOf, BitVec.msb_eq_getLsbD_last, BitVec.getLsbD_xor, hF.width_pred, hbit]
    simp
  · unfold FloatFmt.magPattern
    apply Nat.eq_of_testBit_eq
    intro i
    rw [Nat.testBit_mod_two_pow, Nat.testBit_mod_two_pow]
    by_cases hi : i < F.expBits + F.fracBits
    · have hne : F.expBits + F.fracBits ≠ i := by omega
      have := BitVec.getLsbD_xor (x := a) (y := F.signBit) (i := i)
      rw [hbit] at this
      simp only [BitVec.getLsbD, hne, decide_false, Bool.xor_false] at this
      rw [this]
    · simp [hi]

/-! ## The free NaNs are NaNs (R6) -/

theorem nanPatternS_isNaN (n : NanS) : fmtS.isNaN (nanPatternS n) = true := by
  have hm : fmtS.infPattern + (n.fracPred.val + 1) < 2 ^ (fmtS.expBits + fmtS.fracBits) := by
    have := n.fracPred.isLt
    have h1 : fmtS.infPattern = 2139095040 := by decide
    have h2 : 2 ^ (fmtS.expBits + fmtS.fracBits) = 2147483648 := by decide
    omega
  have e : nanPatternS n = fmtS.pack n.sign (fmtS.infPattern + (n.fracPred.val + 1)) := by
    simp only [nanPatternS, FloatFmt.pack, ← Nat.add_assoc]; rfl
  rw [e, FloatFmt.isNaN_iff, FloatFmt.magPattern_pack fmtS_fits _ hm]
  omega

theorem nanPatternD_isNaN (n : NanD) : fmtD.isNaN (nanPatternD n) = true := by
  have hm : fmtD.infPattern + (n.fracPred.val + 1) < 2 ^ (fmtD.expBits + fmtD.fracBits) := by
    have := n.fracPred.isLt
    have h1 : fmtD.infPattern = 9218868437227405312 := by decide +kernel
    have h2 : 2 ^ (fmtD.expBits + fmtD.fracBits) = 9223372036854775808 := by decide +kernel
    omega
  have e : nanPatternD n = fmtD.pack n.sign (fmtD.infPattern + (n.fracPred.val + 1)) := by
    simp only [nanPatternD, FloatFmt.pack, ← Nat.add_assoc]; rfl
  rw [e, FloatFmt.isNaN_iff, FloatFmt.magPattern_pack fmtD_fits _ hm]
  omega

theorem nanS_isNaN (op : FpOp) (operands : List Word64) : fmtS.isNaN (nanS op operands) = true :=
  nanPatternS_isNaN _
theorem nanD_isNaN (op : FpOp) (operands : List Word64) : fmtD.isNaN (nanD op operands) = true :=
  nanPatternD_isNaN _

/-! ## Rounded patterns -/

/-- What `round_F` answers: the sign it was given, and the rounded magnitude pattern, at most an infinity's. -/
theorem FloatFmt.round_spec (hF : F.Fits) (hS : F.Sound) (neg : Bool) {r : Exact} (hr : r.proper) :
    signOf (F.round neg r) = neg ∧ F.magPattern (F.round neg r) = F.roundPattern r ∧
      F.roundPattern r ≤ F.infPattern := by
  have hle : F.roundPattern r ≤ F.infPattern := by
    rcases le_or_gt (F.overflow : ℝ) r.toReal with h | h
    · exact (F.roundPattern_overflow hr h).le
    · exact (F.roundPattern_nearest hS hr h).1.le
  have hlt := lt_of_le_of_lt hle hS.inf_lt
  exact ⟨FloatFmt.signOf_pack hF _ hlt, FloatFmt.magPattern_pack hF _ hlt, hle⟩

end Sys2Proof.Machine
end

