-- ==== Sys2Proof/Laws/Encoding.lean ====
section
/-! SUPPORT. The fields of an assembled word, and which instruction a table entry is. -/

namespace Sys2Proof

section
variable (c : BitVec 5) (ft fs fd : RegIx) (funct : BitVec 6)

@[simp] theorem functField_assemble : functField (assemble c ft fs fd funct) = funct := by
  apply BitVec.eq_of_getLsbD_eq
  intro i hi
  simp only [functField, assemble, BitVec.getLsbD_extractLsb', BitVec.getLsbD_append]
  have h1 : 0 + i = i := by omega
  simp [h1, hi]

@[simp] theorem fdField_assemble : fdField (assemble c ft fs fd funct) = fd := by
  apply BitVec.eq_of_getLsbD_eq
  intro i hi
  simp only [fdField, assemble, BitVec.getLsbD_extractLsb', BitVec.getLsbD_append]
  have h1 : ¬ 6 + i < 6 := by omega
  have h2 : 6 + i - 6 = i := by omega
  simp [h1, h2, hi]

@[simp] theorem fsField_assemble : fsField (assemble c ft fs fd funct) = fs := by
  apply BitVec.eq_of_getLsbD_eq
  intro i hi
  simp only [fsField, assemble, BitVec.getLsbD_extractLsb', BitVec.getLsbD_append]
  have h1 : ¬ 11 + i < 6 := by omega
  have h2 : ¬ 11 + i - 6 < 5 := by omega
  have h3 : 11 + i - 6 - 5 = i := by omega
  simp [h1, h2, h3, hi]

@[simp] theorem ftField_assemble : ftField (assemble c ft fs fd funct) = ft := by
  apply BitVec.eq_of_getLsbD_eq
  intro i hi
  simp only [ftField, assemble, BitVec.getLsbD_extractLsb', BitVec.getLsbD_append]
  have h1 : ¬ 16 + i < 6 := by omega
  have h2 : ¬ 16 + i - 6 < 5 := by omega
  have h3 : ¬ 16 + i - 6 - 5 < 5 := by omega
  have h4 : 16 + i - 6 - 5 - 5 = i := by omega
  simp [h1, h2, h3, h4, hi]

@[simp] theorem fmtCodeField_assemble : fmtCodeField (assemble c ft fs fd funct) = c := by
  apply BitVec.eq_of_getLsbD_eq
  intro i hi
  simp only [fmtCodeField, assemble, BitVec.getLsbD_extractLsb', BitVec.getLsbD_append]
  have h1 : ¬ 21 + i < 6 := by omega
  have h2 : ¬ 21 + i - 6 < 5 := by omega
  have h3 : ¬ 21 + i - 6 - 5 < 5 := by omega
  have h4 : ¬ 21 + i - 6 - 5 - 5 < 5 := by omega
  have h5 : 21 + i - 6 - 5 - 5 - 5 = i := by omega
  simp [h1, h2, h3, h4, h5, hi]

@[simp] theorem majorField_assemble : majorField (assemble c ft fs fd funct) = 0b010001#6 := by
  apply BitVec.eq_of_getLsbD_eq
  intro i hi
  simp only [majorField, assemble, BitVec.getLsbD_extractLsb', BitVec.getLsbD_append]
  have h1 : ¬ 26 + i < 6 := by omega
  have h2 : ¬ 26 + i - 6 < 5 := by omega
  have h3 : ¬ 26 + i - 6 - 5 < 5 := by omega
  have h4 : ¬ 26 + i - 6 - 5 - 5 < 5 := by omega
  have h5 : ¬ 26 + i - 6 - 5 - 5 - 5 < 5 := by omega
  have h6 : 26 + i - 6 - 5 - 5 - 5 - 5 = i := by omega
  simp [h1, h2, h3, h4, h5, h6, hi]

end

/-- A COP1 word is the one its fields assemble. -/
theorem assemble_fields (w : Word32) (h : majorField w = 0b010001#6) :
    assemble (fmtCodeField w) (ftField w) (fsField w) (fdField w) (functField w) = w := by
  apply BitVec.eq_of_getLsbD_eq
  intro i hi
  have hm : ∀ k, k < 6 → w.getLsbD (26 + k) = (0b010001#6).getLsbD k := fun k hk => by
    rw [← h]; simp [majorField, hk]
  simp only [assemble, fmtCodeField, ftField, fsField, fdField, functField, BitVec.getLsbD_append,
    BitVec.getLsbD_extractLsb']
  by_cases h1 : i < 6
  · simp [h1]
  by_cases h2 : i - 6 < 5
  · simp [h1, h2, show 6 + (i - 6) = i by omega]
  by_cases h3 : i - 6 - 5 < 5
  · simp [h1, h2, h3, show 11 + (i - 6 - 5) = i by omega]
  by_cases h4 : i - 6 - 5 - 5 < 5
  · simp [h1, h2, h3, h4, show 16 + (i - 6 - 5 - 5) = i by omega]
  by_cases h5 : i - 6 - 5 - 5 - 5 < 5
  · simp [h1, h2, h3, h4, h5, show 21 + (i - 6 - 5 - 5 - 5) = i by omega]
  · have e : i = 26 + (i - 6 - 5 - 5 - 5 - 5) := by omega
    have e' : i - 6 - 5 - 5 - 5 - 5 < 6 := by omega
    rw [← hm _ e', ← e]
    simp [h1, h2, h3, h4, h5]

/-- The caller's code of a format is read back as that format (R84). -/
@[simp] theorem fmtOfCode_codeOfFmt (fmt : Fmt) : fmtOfCode (codeOfFmt fmt) = some fmt := by
  cases fmt <;> rfl

/-- And no other code is. -/
theorem codeOfFmt_of_fmtOfCode {c : BitVec 5} {fmt : Fmt} (h : fmtOfCode c = some fmt) :
    codeOfFmt fmt = c := by
  revert h; revert c; cases fmt <;> decide

/-- A 32-bit table word is the word. -/
@[simp] theorem tableWord_toNat (w : Word32) : tableWord 32 w.toNat = w := by
  simp [tableWord, Nat.mod_eq_of_lt w.isLt]

end Sys2Proof
end

