-- ==== Sys2Proof/Laws/Exec.lean ====
section
/-! SUPPORT. What an instruction, a transaction and a step can do, said once: every later proof cites these
instead of unfolding `exec`. -/

namespace Sys2Proof.Machine

/-- The state that a float-to-integer conversion leaves before its write: the same, or with one more draw. -/
theorem State.integerOrDraw_cases {w : Nat} (s : State) (F : FloatFmt w) (fmt : Fmt) (N : Nat) (a : BitVec w) :
    (∃ v, F.toInteger N a = some v ∧ s.integerOrDraw F fmt N a = (v, s)) ∨
    (F.toInteger N a = none ∧
      s.integerOrDraw F fmt N a = (Config.cvtInvalid s.draws fmt N a, s.countDraw)) := by
  unfold State.integerOrDraw
  cases h : F.toInteger N a <;> simp

/-- Everything an instruction can do: write one register by one of the four views, after at most one draw. -/
theorem exec_cases (i : Instr) (s : State) :
    ∃ s', (s' = s ∨ s' = s.countDraw) ∧
      ((∃ b, exec i s = .next (s'.writeFS (fdOf i) b)) ∨ (∃ b, exec i s = .next (s'.writeFD (fdOf i) b)) ∨
       (∃ v, exec i s = .next (s'.w32 (fdOf i) v)) ∨ (∃ v, exec i s = .next (s'.w64 (fdOf i) v))) := by
  cases i with
  | addS | subS | mulS | divS | sqrtS | absS | movS | negS | cvtSD | cvtSW | cvtSL =>
    exact ⟨s, .inl rfl, .inl ⟨_, rfl⟩⟩
  | addD | subD | mulD | divD | sqrtD | absD | movD | negD | cvtDS | cvtDW | cvtDL =>
    exact ⟨s, .inl rfl, .inr (.inl ⟨_, rfl⟩)⟩
  | cvtWS fd fs =>
    rcases s.integerOrDraw_cases fmtS .S 32 (s.readFS fs) with ⟨v, -, h⟩ | ⟨-, h⟩
    · exact ⟨s, .inl rfl, .inr (.inr (.inl ⟨v, by simp only [exec, execCvtWS, h]; rfl⟩))⟩
    · exact ⟨s.countDraw, .inr rfl, .inr (.inr (.inl ⟨_, by simp only [exec, execCvtWS, h]; rfl⟩))⟩
  | cvtWD fd fs =>
    rcases s.integerOrDraw_cases fmtD .D 32 (s.readFD fs) with ⟨v, -, h⟩ | ⟨-, h⟩
    · exact ⟨s, .inl rfl, .inr (.inr (.inl ⟨v, by simp only [exec, execCvtWD, h]; rfl⟩))⟩
    · exact ⟨s.countDraw, .inr rfl, .inr (.inr (.inl ⟨_, by simp only [exec, execCvtWD, h]; rfl⟩))⟩
  | cvtLS fd fs =>
    rcases s.integerOrDraw_cases fmtS .S 64 (s.readFS fs) with ⟨v, -, h⟩ | ⟨-, h⟩
    · exact ⟨s, .inl rfl, .inr (.inr (.inr ⟨v, by simp only [exec, execCvtLS, h]; rfl⟩))⟩
    · exact ⟨s.countDraw, .inr rfl, .inr (.inr (.inr ⟨_, by simp only [exec, execCvtLS, h]; rfl⟩))⟩
  | cvtLD fd fs =>
    rcases s.integerOrDraw_cases fmtD .D 64 (s.readFD fs) with ⟨v, -, h⟩ | ⟨-, h⟩
    · exact ⟨s, .inl rfl, .inr (.inr (.inr ⟨v, by simp only [exec, execCvtLD, h]; rfl⟩))⟩
    · exact ⟨s.countDraw, .inr rfl, .inr (.inr (.inr ⟨_, by simp only [exec, execCvtLD, h]; rfl⟩))⟩

/-- Every instruction completes and writes at most one half of one slot, or one slot: the mode, the status
register, the parameters and the interface stay. -/
theorem exec_next (i : Instr) (s : State) :
    ∃ t, exec i s = .next t ∧ t.full = s.full ∧ t.fcr31 = s.fcr31 ∧ t.params = s.params ∧
      t.inputs = s.inputs ∧ t.replies = s.replies ∧ t.diags = s.diags ∧
      (t.draws = s.draws ∨ t.draws = s.draws + 1) := by
  obtain ⟨s', hs', h⟩ := exec_cases i s
  rcases hs' with rfl | rfl <;> rcases h with ⟨b, h⟩ | ⟨b, h⟩ | ⟨b, h⟩ | ⟨b, h⟩ <;>
    exact ⟨_, h, rfl, rfl, rfl, rfl, rfl, rfl, by first | exact .inl rfl | exact .inr rfl⟩

/-- A step, by the oldest pending transaction. -/
theorem step_nil {s : State} (h : s.inputs = []) : step s = .next s := by
  simp [step, runNext, h]

theorem step_cons {s : State} {tr : Transaction} {rest : List Transaction} (h : s.inputs = tr :: rest) :
    step s = transact tr (s.setInputs rest) := by
  simp [step, runNext, h]

/-- `execute` runs the decoded instruction, or the unknown-opcode handler (R85). -/
theorem transact_execute_some {fmt : Fmt} {w : Word32} {i : Instr} (h : unitDecode fmt w = some i)
    (pc : Nat) (s : State) : transact (.execute fmt w pc) s = exec i s := by
  simp [transact, execute, h]

theorem transact_execute_none {fmt : Fmt} {w : Word32} (h : unitDecode fmt w = none)
    (pc : Nat) (s : State) : transact (.execute fmt w pc) s = .next (s.unknownOpcode w pc) := by
  simp [transact, execute, h]

end Sys2Proof.Machine
end

