-- ==== Sys2Proof/Laws/PerInstr.lean ====
section
/-! SUPPORT. Laws stated per instruction: one family, `TableEntry`. -/

/-- The instruction is the entry of its format's table at its own function code, with its own register fields
(R86-R89): the encoder's tables and the decoder's agree entry by entry. -/
def Sys2Proof.Laws.TableEntry.Statement (i : Sys2Proof.Instr) : Prop :=
  Sys2Proof.tableEntry (Sys2Proof.fmtOf i) (Sys2Proof.functOf i) (Sys2Proof.fdOf i) (Sys2Proof.fsOf i)
    (Sys2Proof.ftOf i) = some i

theorem Sys2Proof.Laws.TableEntry.addS (fd fs ft : Sys2Proof.RegIx) :
    Sys2Proof.Laws.TableEntry.Statement (.addS fd fs ft) := rfl
theorem Sys2Proof.Laws.TableEntry.subS (fd fs ft : Sys2Proof.RegIx) :
    Sys2Proof.Laws.TableEntry.Statement (.subS fd fs ft) := rfl
theorem Sys2Proof.Laws.TableEntry.mulS (fd fs ft : Sys2Proof.RegIx) :
    Sys2Proof.Laws.TableEntry.Statement (.mulS fd fs ft) := rfl
theorem Sys2Proof.Laws.TableEntry.divS (fd fs ft : Sys2Proof.RegIx) :
    Sys2Proof.Laws.TableEntry.Statement (.divS fd fs ft) := rfl
theorem Sys2Proof.Laws.TableEntry.sqrtS (fd fs : Sys2Proof.RegIx) :
    Sys2Proof.Laws.TableEntry.Statement (.sqrtS fd fs) := rfl
theorem Sys2Proof.Laws.TableEntry.absS (fd fs : Sys2Proof.RegIx) :
    Sys2Proof.Laws.TableEntry.Statement (.absS fd fs) := rfl
theorem Sys2Proof.Laws.TableEntry.movS (fd fs : Sys2Proof.RegIx) :
    Sys2Proof.Laws.TableEntry.Statement (.movS fd fs) := rfl
theorem Sys2Proof.Laws.TableEntry.negS (fd fs : Sys2Proof.RegIx) :
    Sys2Proof.Laws.TableEntry.Statement (.negS fd fs) := rfl
theorem Sys2Proof.Laws.TableEntry.cvtDS (fd fs : Sys2Proof.RegIx) :
    Sys2Proof.Laws.TableEntry.Statement (.cvtDS fd fs) := rfl
theorem Sys2Proof.Laws.TableEntry.cvtWS (fd fs : Sys2Proof.RegIx) :
    Sys2Proof.Laws.TableEntry.Statement (.cvtWS fd fs) := rfl
theorem Sys2Proof.Laws.TableEntry.cvtLS (fd fs : Sys2Proof.RegIx) :
    Sys2Proof.Laws.TableEntry.Statement (.cvtLS fd fs) := rfl
theorem Sys2Proof.Laws.TableEntry.addD (fd fs ft : Sys2Proof.RegIx) :
    Sys2Proof.Laws.TableEntry.Statement (.addD fd fs ft) := rfl
theorem Sys2Proof.Laws.TableEntry.subD (fd fs ft : Sys2Proof.RegIx) :
    Sys2Proof.Laws.TableEntry.Statement (.subD fd fs ft) := rfl
theorem Sys2Proof.Laws.TableEntry.mulD (fd fs ft : Sys2Proof.RegIx) :
    Sys2Proof.Laws.TableEntry.Statement (.mulD fd fs ft) := rfl
theorem Sys2Proof.Laws.TableEntry.divD (fd fs ft : Sys2Proof.RegIx) :
    Sys2Proof.Laws.TableEntry.Statement (.divD fd fs ft) := rfl
theorem Sys2Proof.Laws.TableEntry.sqrtD (fd fs : Sys2Proof.RegIx) :
    Sys2Proof.Laws.TableEntry.Statement (.sqrtD fd fs) := rfl
theorem Sys2Proof.Laws.TableEntry.absD (fd fs : Sys2Proof.RegIx) :
    Sys2Proof.Laws.TableEntry.Statement (.absD fd fs) := rfl
theorem Sys2Proof.Laws.TableEntry.movD (fd fs : Sys2Proof.RegIx) :
    Sys2Proof.Laws.TableEntry.Statement (.movD fd fs) := rfl
theorem Sys2Proof.Laws.TableEntry.negD (fd fs : Sys2Proof.RegIx) :
    Sys2Proof.Laws.TableEntry.Statement (.negD fd fs) := rfl
theorem Sys2Proof.Laws.TableEntry.cvtSD (fd fs : Sys2Proof.RegIx) :
    Sys2Proof.Laws.TableEntry.Statement (.cvtSD fd fs) := rfl
theorem Sys2Proof.Laws.TableEntry.cvtWD (fd fs : Sys2Proof.RegIx) :
    Sys2Proof.Laws.TableEntry.Statement (.cvtWD fd fs) := rfl
theorem Sys2Proof.Laws.TableEntry.cvtLD (fd fs : Sys2Proof.RegIx) :
    Sys2Proof.Laws.TableEntry.Statement (.cvtLD fd fs) := rfl
theorem Sys2Proof.Laws.TableEntry.cvtSW (fd fs : Sys2Proof.RegIx) :
    Sys2Proof.Laws.TableEntry.Statement (.cvtSW fd fs) := rfl
theorem Sys2Proof.Laws.TableEntry.cvtDW (fd fs : Sys2Proof.RegIx) :
    Sys2Proof.Laws.TableEntry.Statement (.cvtDW fd fs) := rfl
theorem Sys2Proof.Laws.TableEntry.cvtSL (fd fs : Sys2Proof.RegIx) :
    Sys2Proof.Laws.TableEntry.Statement (.cvtSL fd fs) := rfl
theorem Sys2Proof.Laws.TableEntry.cvtDL (fd fs : Sys2Proof.RegIx) :
    Sys2Proof.Laws.TableEntry.Statement (.cvtDL fd fs) := rfl
end

