-- ==== Sys2Proof/Tests/Slice0.lean ====
section
/-! SUPPORT. Tests, each expected result taken from the spec (95_test_vectors.md unless its comment says otherwise),
and for every obligation with hypotheses a witness that meets them. -/

namespace Sys2Proof.Tests

set_option Elab.async false

open Sys2Proof Sys2Proof.Machine Sys2Proof.Claims

/-! ## Helpers -/

/-- Full mode, with 64-bit values in slots 2 and 4. -/
def fullWith (a b : Word64) : State := ((State.reset.setMode true).w64 2 a).w64 4 b

/-- Half mode, with one slot filled. -/
def halfWith (k : RegIx) (v : Word64) : State := State.reset.w64 k v

/-- The state that an outcome goes on to. -/
def nextOf : Host.Outcome State Fault Refusal → Option State
  | .next t => some t
  | .fault _ => none
  | .refused _ => none

/-- The slot `k` after an instruction. -/
def slotAfter (i : Instr) (s : State) (k : RegIx) : Option Word64 := (nextOf (exec i s)).map (·.slot k)

/-- Slot 0 after an instruction on slots 2 and 4 in Full mode. -/
def runD (i : Instr) (a : Word64) (b : Word64 := 0) : Option Word64 := slotAfter i (fullWith a b) 0

/-- The same on 32-bit patterns, in the low halves. -/
def runS (i : Instr) (a : Word32) (b : Word32 := 0) : Option Word64 :=
  runD i (a.setWidth 64) (b.setWidth 64)

/-- The state after the transactions, by steps; the queue is emptied. -/
def after (s : State) (ts : List Transaction) : Option State :=
  ts.foldl (fun o _ => o.bind fun u => nextOf (step u)) (some (s.setInputs ts))

/-! ## WellFormed: the one check refuses an ill-formed term -/

theorem test_wf_refuses_wide_pc : Transaction.wf Params.default (.execute .S 0x46041000 (2 ^ 32)) = false := by
  decide +kernel
theorem test_wf_accepts_last_pc : Transaction.wf Params.default (.execute .S 0x46041000 (2 ^ 32 - 1)) = true := by
  decide +kernel
theorem test_wf_follows_pc_width : pcFits ⟨.modeDependent, 5⟩ 32 = false ∧ pcFits ⟨.modeDependent, 5⟩ 31 = true := by
  decide

/-! ## Decoding: words written out from the encodings of 30_encoding.md (R81, R82, R86-R89, R95) and the
instruction rules, as major opcode, fmt, ft, fs, fd, funct -/

theorem test_decode_addS : decodeTableWord 32 0b010001_10000_00100_00010_00000_000000 = some (.addS 0 2 4) := by decide
theorem test_decode_subS : decodeTableWord 32 0b010001_10000_11111_00001_10000_000001 = some (.subS 16 1 31) := by decide
theorem test_decode_mulS : decodeTableWord 32 0b010001_10000_00001_00010_00011_000010 = some (.mulS 3 2 1) := by decide
theorem test_decode_divS : decodeTableWord 32 0b010001_10000_01100_01010_01110_000011 = some (.divS 14 10 12) := by decide
theorem test_decode_sqrtS : decodeTableWord 32 0b010001_10000_00000_00010_11111_000100 = some (.sqrtS 31 2) := by decide
theorem test_decode_absS : decodeTableWord 32 0b010001_10000_00000_10000_00001_000101 = some (.absS 1 16) := by decide
theorem test_decode_movS : decodeTableWord 32 0b010001_10000_00000_00000_00001_000110 = some (.movS 1 0) := by decide
theorem test_decode_negS : decodeTableWord 32 0b010001_10000_00000_11111_00000_000111 = some (.negS 0 31) := by decide
theorem test_decode_cvtDS : decodeTableWord 32 0b010001_10000_00000_00010_00011_100001 = some (.cvtDS 3 2) := by decide
theorem test_decode_cvtWS : decodeTableWord 32 0b010001_10000_00000_00010_00100_100100 = some (.cvtWS 4 2) := by decide
theorem test_decode_cvtLS : decodeTableWord 32 0b010001_10000_00000_00101_00110_100101 = some (.cvtLS 6 5) := by decide
theorem test_decode_addD : decodeTableWord 32 0b010001_10001_00101_00100_00110_000000 = some (.addD 6 4 5) := by decide
theorem test_decode_subD : decodeTableWord 32 0b010001_10001_00011_00010_00001_000001 = some (.subD 1 2 3) := by decide
theorem test_decode_mulD : decodeTableWord 32 0b010001_10001_10000_01000_00100_000010 = some (.mulD 4 8 16) := by decide
theorem test_decode_divD : decodeTableWord 32 0b010001_10001_11110_11101_11100_000011 = some (.divD 28 29 30) := by decide
theorem test_decode_sqrtD : decodeTableWord 32 0b010001_10001_00000_00111_00110_000100 = some (.sqrtD 6 7) := by decide
theorem test_decode_absD : decodeTableWord 32 0b010001_10001_00000_01001_01000_000101 = some (.absD 8 9) := by decide
theorem test_decode_movD : decodeTableWord 32 0b010001_10001_00000_10001_10010_000110 = some (.movD 18 17) := by decide
theorem test_decode_negD : decodeTableWord 32 0b010001_10001_00000_00001_00010_000111 = some (.negD 2 1) := by decide
theorem test_decode_cvtSD : decodeTableWord 32 0b010001_10001_00000_00110_01000_100000 = some (.cvtSD 8 6) := by decide
theorem test_decode_cvtWD : decodeTableWord 32 0b010001_10001_00000_10100_01010_100100 = some (.cvtWD 10 20) := by decide
theorem test_decode_cvtLD : decodeTableWord 32 0b010001_10001_00000_00001_00000_100101 = some (.cvtLD 0 1) := by decide
theorem test_decode_cvtSW : decodeTableWord 32 0b010001_10100_00000_00011_00010_100000 = some (.cvtSW 2 3) := by decide
theorem test_decode_cvtDW : decodeTableWord 32 0b010001_10100_00000_00100_00110_100001 = some (.cvtDW 6 4) := by decide
theorem test_decode_cvtSL : decodeTableWord 32 0b010001_10101_00000_01011_01101_100000 = some (.cvtSL 13 11) := by decide
theorem test_decode_cvtDL : decodeTableWord 32 0b010001_10101_00000_11111_11110_100001 = some (.cvtDL 30 31) := by decide

/-- Rejected by name: another major opcode, the caller's own COP1 formats (MFC1, BC1), an undefined entry (U5). -/
theorem test_decode_rejects :
    decodeWord 0x00000000 = .error (.notCop1 0) ∧
    decodeWord 0x44041000 = .error (.notComputational 0) ∧
    decodeWord 0x45000000 = .error (.notComputational 8) ∧
    decodeWord 0x4600000D = .error (.unknownOpcode .S 0x0D) := by decide

/-- U1-U7: the undefined entries of the vectors. -/
theorem test_undefined_entries :
    unitDecode .S 0x4600003F = none ∧ unitDecode .W 0x46801080 = none ∧ unitDecode .S 0x46000020 = none ∧
    unitDecode .D 0x46200021 = none ∧ unitDecode .S 0x4600000D = none ∧ unitDecode .D 0x46222032 = none ∧
    unitDecode .L 0x46A00024 = none := by decide

/-- U8-U10: the bits that the unit does not read. -/
theorem test_unread_bits :
    unitDecode .S 0x46071004 = some (.sqrtS 0 2) ∧ unitDecode .S 0xFFE41000 = some (.addS 0 2 4) ∧
    unitDecode .D 0x46041000 = some (.addD 0 2 4) := by decide

/-! ## One step of each instruction: vectors V1 (arithmetic) and V2 (conversions) -/

theorem test_addS_tie : runS (.addS 0 2 4) 0x3F800001 0x33800000 = some 0x3F800002 := by decide +kernel
theorem test_addS_overflow : runS (.addS 0 2 4) 0x7F7FFFFF 0x7F7FFFFF = some 0x7F800000 := by decide +kernel
theorem test_subS_order : runS (.subS 0 2 4) 0x40A00000 0x40400000 = some 0x40000000 := by decide +kernel
theorem test_subS_subnormal : runS (.subS 0 2 4) 0x00800000 0x00000001 = some 0x007FFFFF := by decide +kernel
theorem test_mulS_underflow_tie : runS (.mulS 0 2 4) 0x00000003 0x3F000000 = some 0x00000002 := by decide +kernel
theorem test_mulS_inf : runS (.mulS 0 2 4) 0xC0000000 0x7F800000 = some 0xFF800000 := by decide +kernel
theorem test_divS_third : runS (.divS 0 2 4) 0x3F800000 0x40400000 = some 0x3EAAAAAB := by decide +kernel
theorem test_divS_by_zero : runS (.divS 0 2 4) 0x3F800000 0x80000000 = some 0xFF800000 := by decide +kernel
theorem test_sqrtS_two : runS (.sqrtS 0 2) 0x40000000 = some 0x3FB504F3 := by decide +kernel
theorem test_sqrtS_subnormal : runS (.sqrtS 0 2) 0x00000001 = some 0x1A3504F3 := by decide +kernel
theorem test_absS_snan : runS (.absS 0 2) 0xFF800001 = some 0x7F800001 := by decide +kernel
theorem test_movS_snan : runS (.movS 0 2) 0x7F800001 = some 0x7F800001 := by decide +kernel
theorem test_negS_zero : runS (.negS 0 2) 0x00000000 = some 0x80000000 := by decide +kernel
theorem test_negS_nan : runS (.negS 0 2) 0x7FC00000 = some 0xFFC00000 := by decide +kernel

theorem test_addD_tenths :
    runD (.addD 0 2 4) 0x3FB999999999999A 0x3FC999999999999A = some 0x3FD3333333333334 := by decide +kernel
theorem test_addD_tie :
    runD (.addD 0 2 4) 0x3FF0000000000000 0x3CA0000000000000 = some 0x3FF0000000000000 := by decide +kernel
theorem test_subD_subnormal :
    runD (.subD 0 2 4) 0x0010000000000000 0x0000000000000001 = some 0x000FFFFFFFFFFFFF := by decide +kernel
theorem test_subD_zero_sign : runD (.subD 0 2 4) 0x8000000000000000 0 = some 0x8000000000000000 := by decide +kernel
theorem test_mulD_overflow :
    runD (.mulD 0 2 4) 0x7FEFFFFFFFFFFFFF 0x4000000000000000 = some 0x7FF0000000000000 := by decide +kernel
theorem test_mulD_underflow_tie : runD (.mulD 0 2 4) 1 0x3FE0000000000000 = some 0 := by decide +kernel
theorem test_divD_third :
    runD (.divD 0 2 4) 0x3FF0000000000000 0x4008000000000000 = some 0x3FD5555555555555 := by decide +kernel
theorem test_divD_by_zero :
    runD (.divD 0 2 4) 0x3FF0000000000000 0x8000000000000000 = some 0xFFF0000000000000 := by decide +kernel
theorem test_sqrtD_two : runD (.sqrtD 0 2) 0x4000000000000000 = some 0x3FF6A09E667F3BCD := by decide +kernel
theorem test_sqrtD_subnormal : runD (.sqrtD 0 2) 1 = some 0x1E60000000000000 := by decide +kernel
theorem test_absD_snan : runD (.absD 0 2) 0xFFF0000000000001 = some 0x7FF0000000000001 := by decide +kernel
theorem test_movD_any : runD (.movD 0 2) 0x0123456789ABCDEF = some 0x0123456789ABCDEF := by decide +kernel
theorem test_negD_snan : runD (.negD 0 2) 0x7FF0000000000001 = some 0xFFF0000000000001 := by decide +kernel

theorem test_cvtDS_exact : runS (.cvtDS 0 2) 0x3DCCCCCD = some 0x3FB99999A0000000 := by decide +kernel
theorem test_cvtDS_subnormal : runS (.cvtDS 0 2) 0x00000001 = some 0x36A0000000000000 := by decide +kernel
theorem test_cvtSD_tie : runD (.cvtSD 0 2) 0x36A8000000000000 = some 0x00000002 := by decide +kernel
theorem test_cvtSD_overflow : runD (.cvtSD 0 2) 0xFE37E43C8800759C = some 0xFF800000 := by decide +kernel
theorem test_cvtSW_tie : runS (.cvtSW 0 2) 0x01000003 = some 0x4B800002 := by decide +kernel
theorem test_cvtSW_negative : runS (.cvtSW 0 2) 0x80000000 = some 0xCF000000 := by decide +kernel
theorem test_cvtDW_negative : runS (.cvtDW 0 2) 0xFFFFFFFF = some 0xBFF0000000000000 := by decide +kernel
theorem test_cvtDW_zero : runS (.cvtDW 0 2) 0 = some 0 := by decide +kernel
theorem test_cvtSL_rounds : runD (.cvtSL 0 2) 0x0000000100000001 = some 0x4F800000 := by decide +kernel
theorem test_cvtSL_negative : runD (.cvtSL 0 2) 0x8000000000000000 = some 0xDF000000 := by decide +kernel
theorem test_cvtDL_tie : runD (.cvtDL 0 2) 0x0020000000000003 = some 0x4340000000000002 := by decide +kernel
theorem test_cvtDL_max : runD (.cvtDL 0 2) 0x7FFFFFFFFFFFFFFF = some 0x43E0000000000000 := by decide +kernel
theorem test_cvtWS_negative : runS (.cvtWS 0 2) 0xC079999A = some 0xFFFFFFFD := by decide +kernel
theorem test_cvtWS_least : runS (.cvtWS 0 2) 0xCF000000 = some 0x80000000 := by decide +kernel
theorem test_cvtWD_greatest : runD (.cvtWD 0 2) 0x41DFFFFFFFF9999A = some 0x7FFFFFFF := by decide +kernel
theorem test_cvtWD_least : runD (.cvtWD 0 2) 0xC1E00000001CCCCD = some 0x80000000 := by decide +kernel
theorem test_cvtLS_negative : runS (.cvtLS 0 2) 0xC079999A = some 0xFFFFFFFFFFFFFFFD := by decide +kernel
theorem test_cvtLS_wide : runS (.cvtLS 0 2) 0x4F800000 = some 0x0000000100000000 := by decide +kernel
theorem test_cvtLD_greatest : runD (.cvtLD 0 2) 0x43DFFFFFFFFFFFFF = some 0x7FFFFFFFFFFFFC00 := by decide +kernel
theorem test_cvtLD_toward_zero : runD (.cvtLD 0 2) 0xBFEFF7CED916872B = some 0 := by decide +kernel

/-- The operands with no integer of their own: the vectors' `CVT_INVALID` rows, on each side of the boundaries. -/
theorem test_cvt_invalid :
    fmtS.toInteger 32 0x4F000000 = none ∧ fmtS.toInteger 32 0x7FC00000 = none ∧
    fmtD.toInteger 32 0x41E0000000000000 = none ∧ fmtD.toInteger 32 0xC1E0000000200000 = none ∧
    fmtS.toInteger 64 0x5F000000 = none ∧ fmtS.toInteger 64 0xFF800000 = none ∧
    fmtD.toInteger 64 0x43E0000000000000 = none ∧ fmtD.toInteger 64 0x7FF0000000000000 = none := by decide +kernel

/-- The vectors' `NAN_POLICY` rows: an invalid operation goes to the policy, with the operands as read. -/
theorem test_nan_policy :
    fmtS.fadd .addS 0x7F800000 0xFF800000 = nanS .addS [0x7F800000, 0xFF800000] ∧
    fmtS.fsub .subS 0x7F800000 0x7F800000 = nanS .subS [0x7F800000, 0x7F800000] ∧
    fmtS.fdiv .divS 0 0 = nanS .divS [0, 0] ∧
    fmtS.fsqrt .sqrtS 0xFF800000 = nanS .sqrtS [0xFF800000] := by
  have h {n : Nat} (a : BitVec n) : operands1 a = [a.setWidth 64] := rfl
  refine ⟨?_, ?_, ?_, ?_⟩
  · rw [FloatFmt.fadd, if_neg (by decide), FloatFmt.addNumbers, if_pos (by decide)]; simp [fmtS, operands2]
  · rw [FloatFmt.fsub, if_neg (by decide), FloatFmt.addNumbers, if_pos (by decide)]; simp [fmtS, operands2]
  · rw [FloatFmt.fdiv, if_neg (by decide), if_pos (by decide)]; simp [fmtS, operands2]
  · rw [FloatFmt.fsqrt, if_neg (by decide), if_neg (by decide), if_pos (by decide)]; simp [fmtS, h]

/-! ## Overlap (H1-H4), access (A), control (K), diagnostics (U) and the interface -/

theorem test_H1 : slotAfter (.addS 1 1 1) (halfWith 0 0x3FF0000000000000) 0 = some 0x4070000000000000 := by decide +kernel
theorem test_H2 : slotAfter (.addD 0 0 0) (halfWith 0 0x4000000000000000) 0 = some 0x4010000000000000 := by decide +kernel
theorem test_H3 : slotAfter (.cvtDS 2 2) (halfWith 2 0x0000000040400000) 2 = some 0x4008000000000000 := by decide +kernel
theorem test_H4 : slotAfter (.cvtSD 1 0) (halfWith 0 0x4008000000000000) 0 = some 0x4040000000000000 := by decide +kernel

/-- A11: `mov.s $f1, $f0` in Half mode under each `SINGLE_VIEW`. -/
theorem test_A11 :
    (slotAfter (.movS 1 0) (halfWith 0 0x4000000040400000) 0 = some 0x4040000040400000) ∧
    (slotAfter (.movS 1 0) { halfWith 0 0x4000000040400000 with params := ⟨.directLow, 32⟩ } 1
      = some 0x0000000040400000) := by decide +kernel

/-- A3, A5: a 32-bit write keeps the other half, of the pair's even slot or of its own slot. -/
theorem test_A3_A5 :
    (State.reset.w32 5 0xDEADBEEF).slot 4 = 0xDEADBEEF00000000 ∧
    (((State.reset.setMode true).w64 3 0x1234567800000000).w32 3 0x9ABCDEF0).slot 3 = 0x123456789ABCDEF0 := by
  decide +kernel

/-- A6, A7: the odd slot is out of 32-bit reach in Half mode, and its low half is read in Full mode. -/
theorem test_A6_A7 :
    (after State.reset [.write64 3 0x1111111122222222, .read32 3, .read32 2, .setAddressingMode true, .read32 3]).map
      (·.replies) = some [.bits32 0, .bits32 0, .bits32 0x22222222] := by decide +kernel

/-- K1, K9, K10, K12: what a status write stores and reports. -/
theorem test_K_status :
    (after State.reset [.writeCtl 31 0xFFFFFFFF, .readCtl 31, .writeCtl 31 0xFE7C0000, .readCtl 31]).map
      (fun t => (t.replies, t.diags)) =
      some ([.bits32 0x0183FFFF, .bits32 0], [.unimplementedStatusBits 0xFFFFFFFF]) := by decide +kernel

/-- K14, K15: the undefined control indices. -/
theorem test_K_undefined :
    (after State.reset [.readCtl 30, .writeCtl 0 0xFFFFFFFF]).map (fun t => (t.replies, t.diags, t.fcr31)) =
      some ([.bits32 0], [.invalidControlRead 30, .invalidControlWrite 0 0xFFFFFFFF], 0) := by decide +kernel

/-- U2: the diagnostic address wraps. -/
theorem test_U2 : (after State.reset [.execute .W 0x46801080 0]).map (·.diags)
    = some [.unknownOpcode 0x46801080 0xFFFFFFFC] := by decide +kernel

/-- E7, placed as the next word: `add.s $f0, $f2, $f4` of 2 and 3. -/
theorem test_E7 : (nextOf (step (((State.reset.w32 2 0x40000000).w32 4 0x40400000).withFetchWord 32 0x46041000))).map
    (·.r32 0) = some 0x40A00000 := by decide +kernel

/-! ## Witnesses: for each obligation with hypotheses, inputs that meet them. Reset, encoding, dispatch -/

/-- A state that is not the reset state, with transactions pending. -/
def busy (ts : List Transaction) : State := ((halfWith 1 0x4000000000000000).setStatus 0x00800003).setInputs ts

theorem witness_ResetTransactionZeroesTheUnit : (busy [.reset, .read32 0]).inputs = .reset :: [.read32 0] := rfl

/-- Both branches: `ft` read, and `ft` not read and not zero. -/
theorem witness_DecodedWordIsTheEncoding :
    (decodeTableWord 32 (0x46041000 : Word32).toNat = some (.addS 0 2 4) ∧ readsFt (.addS 0 2 4) = true) ∧
    (decodeTableWord 32 (0x461F1004 : Word32).toNat = some (.sqrtS 0 2) ∧ readsFt (.sqrtS 0 2) = false) := by decide

theorem witness_UnreadBitsHaveNoEffect :
    ((0x46041000 : Word32).setWidth 21 = (0xFFE41000 : Word32).setWidth 21 ∧ Defined .S 0x46041000) ∧
    ((0x46071004 : Word32).setWidth 16 = (0x46001004 : Word32).setWidth 16 ∧
      unitDecode .S 0x46071004 = some (.sqrtS 0 2) ∧ readsFt (.sqrtS 0 2) = false) := by
  refine ⟨⟨by decide, ?_⟩, by decide⟩
  simp [Defined, definedFuncts]

/-- Defined and undefined entries of each table, at the ends of the function codes. -/
theorem witness_DefinedEntriesAreTheListedOnes :
    (Defined .S 0x00 ∧ Defined .D 0x25 ∧ Defined .W 0x20 ∧ Defined .L 0x21) ∧
    (¬ Defined .S 0x3F ∧ ¬ Defined .S 0x20 ∧ ¬ Defined .D 0x21 ∧ ¬ Defined .W 0x00 ∧ ¬ Defined .L 0x24) := by
  simp [Defined, definedFuncts]

/-- `pc_in` at 0, where the address wraps. -/
theorem witness_UnknownOpcodeOnlyReports :
    (busy [.execute .W 0x46801080 0]).inputs = .execute .W 0x46801080 0 :: [] ∧ ¬ Defined .W 0x46801080 := by
  simp [busy, Defined, definedFuncts]

theorem witness_StepRunsTheDecodedInstruction :
    (busy [.execute .S 0x46041000 4, .reset]).inputs = .execute .S 0x46041000 4 :: [.reset] ∧
    unitDecode .S 0x46041000 = some (.addS 0 2 4) := ⟨rfl, by decide⟩

theorem witness_EveryStepCompletes : State.reset.inputs = [] := rfl

/-- A destination that does change its slot: slot `fd`, and the even slot below an odd `fd` in Half mode. -/
theorem witness_InstructionsChangeOnlyTheirDestination :
    slotAfter (.addD 0 0 0) (halfWith 0 0x4000000000000000) 0 ≠ some ((halfWith 0 0x4000000000000000).slot 0) ∧
    slotAfter (.movS 1 0) (halfWith 0 0x40400000) 0 ≠ some ((halfWith 0 0x40400000).slot 0) := by decide +kernel

/-- A value that fits and one that does not, for each of the four conversions to integers. -/
theorem witness_ConversionsToWordAndLongResults :
    (fmtS.toInteger 32 (single (fullWith 0x4079999A 0) 2) = some 3 ∧
      fmtS.toInteger 32 (single (fullWith 0x4F000000 0) 2) = none) ∧
    (fmtD.toInteger 32 ((fullWith 0x400F333333333333 0).slot 2) = some 3 ∧
      fmtD.toInteger 32 ((fullWith 0x41E0000000000000 0).slot 2) = none) ∧
    (fmtS.toInteger 64 (single (fullWith 0x4F800000 0) 2) = some 0x100000000 ∧
      fmtS.toInteger 64 (single (fullWith 0x5F000000 0) 2) = none) ∧
    (fmtD.toInteger 64 ((fullWith 0xC3E0000000000000 0).slot 2) = some 0x8000000000000000 ∧
      fmtD.toInteger 64 ((fullWith 0x43E0000000000000 0).slot 2) = none) := by decide +kernel

/-- Half mode under `ModeDependent`, at the first and the last pair. -/
theorem witness_OverlappingOperandsAreReadFirst :
    (halfWith 0 0x4008000000000000).full = false ∧
    (halfWith 0 0x4008000000000000).params.singleView = .modeDependent ∧
    (0 : RegIx).toNat % 2 = 0 ∧ (30 : RegIx).toNat % 2 = 0 := by decide

/-! ## Witnesses: arithmetic -/

/-- `val` from the three fields. -/
theorem val_of_fields {w : Nat} (K : Ieee) (a : BitVec w) {neg : Bool} {e f : Nat} (hs : a.msb = neg)
    (he : K.exp a = e) (hf : K.frac a = f) :
    K.val a = (if neg then -1 else 1) *
      (if e = 0 then (f / 2 ^ K.fracBits) * (2 : ℝ) ^ (1 - (K.bias : ℤ))
       else (1 + f / 2 ^ K.fracBits) * (2 : ℝ) ^ ((e : ℤ) - K.bias)) := by
  subst hs he hf; rfl

theorem val_one_s : binary32.val (0x3F800000 : Word32) = 1 := by
  rw [val_of_fields binary32 _ (neg := false) (e := 127) (f := 0) (by decide) (by decide) (by decide)]
  norm_num [binary32, Ieee.bias]
theorem val_neg_one_s : binary32.val (0xBF800000 : Word32) = -1 := by
  rw [val_of_fields binary32 _ (neg := true) (e := 127) (f := 0) (by decide) (by decide) (by decide)]
  norm_num [binary32, Ieee.bias]
theorem val_max_s : binary32.val (0x7F7FFFFF : Word32) = 2 ^ 128 - 2 ^ 104 := by
  rw [val_of_fields binary32 _ (neg := false) (e := 254) (f := 0x7FFFFF) (by decide) (by decide) (by decide)]
  norm_num [binary32, Ieee.bias]
theorem val_two_pow_103_s : binary32.val (0x73000000 : Word32) = 2 ^ 103 := by
  rw [val_of_fields binary32 _ (neg := false) (e := 230) (f := 0) (by decide) (by decide) (by decide)]
  norm_num [binary32, Ieee.bias]
theorem val_two_pow_31_s : binary32.val (0x4F000000 : Word32) = 2 ^ 31 := by
  rw [val_of_fields binary32 _ (neg := false) (e := 158) (f := 0) (by decide) (by decide) (by decide)]
  norm_num [binary32, Ieee.bias]
theorem val_neg_two_pow_31_s : binary32.val (0xCF000000 : Word32) = -2 ^ 31 := by
  rw [val_of_fields binary32 _ (neg := true) (e := 158) (f := 0) (by decide) (by decide) (by decide)]
  norm_num [binary32, Ieee.bias]
theorem val_one_d : binary64.val (0x3FF0000000000000 : Word64) = 1 := by
  rw [val_of_fields binary64 _ (neg := false) (e := 1023) (f := 0) (by decide) (by decide) (by decide)]
  norm_num [binary64, Ieee.bias]
theorem val_neg_one_d : binary64.val (0xBFF0000000000000 : Word64) = -1 := by
  rw [val_of_fields binary64 _ (neg := true) (e := 1023) (f := 0) (by decide) (by decide) (by decide)]
  norm_num [binary64, Ieee.bias]

/-- The classes that the rules' clauses speak of are all inhabited, by both signs. -/
theorem witness_classes_s :
    binary32.NaN (0x7F800001 : Word32) ∧ binary32.NaN (0xFFFFFFFF : Word32) ∧
    binary32.Inf (0x7F800000 : Word32) ∧ binary32.Inf (0xFF800000 : Word32) ∧
    binary32.Zero (0 : Word32) ∧ binary32.Zero (0x80000000 : Word32) ∧
    binary32.Finite (0x7F7FFFFF : Word32) ∧ binary32.Finite (0x80000001 : Word32) ∧
    ¬ binary32.NaN (0x7F800000 : Word32) ∧ ¬ binary32.NaN (0xFF800000 : Word32) ∧
    ¬ binary32.NaN (0x3F800000 : Word32) ∧ ¬ binary32.NaN (0xBF800000 : Word32) ∧ ¬ binary32.NaN (0 : Word32) ∧
    ¬ binary32.Zero (0x3F800000 : Word32) ∧ ¬ binary32.Zero (0x80000001 : Word32) ∧
    ¬ binary32.Zero (0x7F800000 : Word32) := by
  unfold Ieee.NaN Ieee.Inf Ieee.Zero Ieee.Finite; decide
theorem witness_classes_d :
    binary64.NaN (0x7FF0000000000001 : Word64) ∧ binary64.NaN (0xFFFFFFFFFFFFFFFF : Word64) ∧
    binary64.Inf (0x7FF0000000000000 : Word64) ∧ binary64.Inf (0xFFF0000000000000 : Word64) ∧
    binary64.Zero (0 : Word64) ∧ binary64.Zero (0x8000000000000000 : Word64) ∧
    binary64.Finite (0x7FEFFFFFFFFFFFFF : Word64) ∧ binary64.Finite (0x8000000000000001 : Word64) ∧
    ¬ binary64.NaN (0x7FF0000000000000 : Word64) ∧ ¬ binary64.NaN (0xFFF0000000000000 : Word64) ∧
    ¬ binary64.NaN (0x3FF0000000000000 : Word64) ∧ ¬ binary64.NaN (0xBFF0000000000000 : Word64) ∧
    ¬ binary64.NaN (0 : Word64) ∧
    ¬ binary64.Zero (0x3FF0000000000000 : Word64) ∧ ¬ binary64.Zero (0x8000000000000001 : Word64) ∧
    ¬ binary64.Zero (0x7FF0000000000000 : Word64) := by
  unfold Ieee.NaN Ieee.Inf Ieee.Zero Ieee.Finite; decide

/-- `AddRule` and `SubRule`, each clause in binary32: infinities of one sign and of two, a nonzero exact result at
and below the overflow threshold, zeros, exact cancellation. -/
theorem witness_AddAndSub_s :
    (binary32.Inf (0x7F800000 : Word32) ∧ (0x7F800000 : Word32).msb = (0x7F800000 : Word32).msb ∧
      (0x7F800000 : Word32).msb ≠ (0xFF800000 : Word32).msb) ∧
    binary32.val (0x3F800000 : Word32) + binary32.val (0x3F800000 : Word32) ≠ 0 ∧
    |binary32.val (0x3F800000 : Word32) + binary32.val (0x3F800000 : Word32)| < binary32.threshold ∧
    binary32.threshold ≤ |binary32.val (0x7F7FFFFF : Word32) + binary32.val (0x7F7FFFFF : Word32)| ∧
    binary32.val (0x3F800000 : Word32) + binary32.val (0xBF800000 : Word32) = 0 ∧
    binary32.val (0x3F800000 : Word32) - binary32.val (0x3F800000 : Word32) = 0 ∧
    binary32.val (0x3F800000 : Word32) - binary32.val (0xBF800000 : Word32) ≠ 0 := by
  rw [val_one_s, val_neg_one_s, val_max_s]
  refine ⟨⟨witness_classes_s.2.2.1, rfl, by decide⟩, by norm_num, ?_, ?_, by norm_num, by norm_num, by norm_num⟩ <;>
    norm_num [Ieee.threshold, binary32, Ieee.bias]

/-- The overflow threshold itself is a sum of two patterns, and is reached by a product (R111(a)). -/
theorem witness_threshold_s :
    |binary32.val (0x7F7FFFFF : Word32) + binary32.val (0x73000000 : Word32)| = binary32.threshold ∧
    binary32.threshold ≤ |binary32.val (0x7F7FFFFF : Word32) * binary32.val (0x4F000000 : Word32)| := by
  rw [val_max_s, val_two_pow_103_s, val_two_pow_31_s]
  constructor <;> norm_num [Ieee.threshold, binary32, Ieee.bias]

/-- The same in binary64. -/
theorem witness_AddAndSub_d :
    binary64.val (0x3FF0000000000000 : Word64) + binary64.val (0x3FF0000000000000 : Word64) ≠ 0 ∧
    |binary64.val (0x3FF0000000000000 : Word64) + binary64.val (0x3FF0000000000000 : Word64)| < binary64.threshold ∧
    binary64.val (0x3FF0000000000000 : Word64) + binary64.val (0xBFF0000000000000 : Word64) = 0 ∧
    binary64.val (0x3FF0000000000000 : Word64) - binary64.val (0x3FF0000000000000 : Word64) = 0 ∧
    binary64.val (0x3FF0000000000000 : Word64) - binary64.val (0xBFF0000000000000 : Word64) ≠ 0 := by
  rw [val_one_d, val_neg_one_d]
  refine ⟨by norm_num, ?_, by norm_num, by norm_num, by norm_num⟩
  rw [Ieee.threshold, lt_sub_iff_add_lt]
  have h : (2 : ℝ) ^ (binary64.bias - binary64.fracBits - 1) ≤ 2 ^ binary64.bias :=
    pow_le_pow_right₀ (by norm_num) (by decide)
  have h1 : (2 : ℝ) ^ 2 ≤ 2 ^ binary64.bias := pow_le_pow_right₀ (by norm_num) (by decide)
  rw [pow_succ]
  norm_num at h1 ⊢
  linarith

/-- Rounding ties exist, so the clause on them speaks of something (V1: `1 + 2^-24`). -/
theorem witness_RoundsTo_tie :
    |(1 : ℝ) - (1 + 2 ^ (-24 : ℤ))| = |(1 + 2 ^ (-23 : ℤ) : ℝ) - (1 + 2 ^ (-24 : ℤ))| := by
  norm_num [abs_of_pos, abs_of_neg]

/-- `ArithmeticNaNsAreExactlyTheListed` in binary32: a NaN operand, each invalid pair, the square root of a negative
number, and pairs that are none of these. -/
theorem witness_ArithmeticNaNs_s :
    binary32.NaN (0x7F800001 : Word32) ∧
    (binary32.Inf (0x7F800000 : Word32) ∧ binary32.Inf (0xFF800000 : Word32) ∧
      (0x7F800000 : Word32).msb ≠ (0xFF800000 : Word32).msb) ∧
    (binary32.Inf (0xFF800000 : Word32) ∧ (0xFF800000 : Word32).msb = (0xFF800000 : Word32).msb) ∧
    (binary32.Zero (0x80000000 : Word32) ∧ binary32.Inf (0x7F800000 : Word32)) ∧
    ((0x80000001 : Word32).msb = true ∧ ¬ binary32.Zero (0x80000001 : Word32)) ∧
    (¬ binary32.NaN (0x7F800000 : Word32) ∧ ¬ binary32.NaN (0x3F800000 : Word32) ∧
      ¬ binary32.Inf (0x3F800000 : Word32) ∧ ¬ binary32.Zero (0x3F800000 : Word32)) ∧
    ¬ ((0x80000000 : Word32).msb = true ∧ ¬ binary32.Zero (0x80000000 : Word32)) := by
  unfold Ieee.NaN Ieee.Inf Ieee.Zero; decide
/-- The same in binary64. -/
theorem witness_ArithmeticNaNs_d :
    binary64.NaN (0x7FF0000000000001 : Word64) ∧
    (binary64.Inf (0x7FF0000000000000 : Word64) ∧ binary64.Inf (0xFFF0000000000000 : Word64) ∧
      (0x7FF0000000000000 : Word64).msb ≠ (0xFFF0000000000000 : Word64).msb) ∧
    (binary64.Zero (0x8000000000000000 : Word64) ∧ binary64.Inf (0x7FF0000000000000 : Word64)) ∧
    ((0x8000000000000001 : Word64).msb = true ∧ ¬ binary64.Zero (0x8000000000000001 : Word64)) ∧
    (¬ binary64.NaN (0x7FF0000000000000 : Word64) ∧ ¬ binary64.NaN (0x3FF0000000000000 : Word64) ∧
      ¬ binary64.Inf (0x3FF0000000000000 : Word64) ∧ ¬ binary64.Zero (0x3FF0000000000000 : Word64)) ∧
    ¬ ((0x8000000000000000 : Word64).msb = true ∧ ¬ binary64.Zero (0x8000000000000000 : Word64)) := by
  unfold Ieee.NaN Ieee.Inf Ieee.Zero; decide

/-- `MulAndDivRoundTheExactResult` and `SqrtRoundsTheExactResult`: each clause's operands, none a NaN. -/
theorem witness_MulDivSqrt :
    (binary32.Inf (0xFF800000 : Word32) ∧ ¬ binary32.NaN (0xFF800000 : Word32) ∧
      ¬ binary32.Zero (0xBF800000 : Word32) ∧ binary32.Finite (0xBF800000 : Word32)) ∧
    (binary32.Finite (0x00000001 : Word32) ∧ ¬ binary32.Zero (0x00000001 : Word32) ∧
      (0x00000001 : Word32).msb = false ∧ ¬ binary32.NaN (0x00000001 : Word32)) ∧
    (binary32.Zero (0x80000000 : Word32) ∧ binary32.Finite (0x80000000 : Word32)) ∧
    (binary32.Inf (0x7F800000 : Word32) ∧ (0x7F800000 : Word32).msb = false) ∧
    (binary64.Finite (0x0000000000000001 : Word64) ∧ ¬ binary64.Zero (0x0000000000000001 : Word64) ∧
      (0x0000000000000001 : Word64).msb = false ∧ ¬ binary64.NaN (0x0000000000000001 : Word64)) ∧
    (binary64.Inf (0xFFF0000000000000 : Word64) ∧ ¬ binary64.NaN (0xFFF0000000000000 : Word64)) := by
  unfold Ieee.NaN Ieee.Inf Ieee.Zero Ieee.Finite; decide

/-- `FloatToFloatConversions`: a NaN, an infinity, a zero and a finite source of each format. -/
theorem witness_FloatToFloatConversions :
    (binary32.NaN (0x7F800001 : Word32) ∧ binary32.Inf (0xFF800000 : Word32) ∧ binary32.Zero (0x80000000 : Word32) ∧
      binary32.Finite (0x00000001 : Word32)) ∧
    (binary64.NaN (0xFFF8000000000000 : Word64) ∧ binary64.Inf (0x7FF0000000000000 : Word64) ∧
      binary64.Zero (0x8000000000000000 : Word64) ∧ binary64.Finite (0x36A8000000000000 : Word64) ∧
      ¬ binary64.Zero (0x36A8000000000000 : Word64)) := by
  unfold Ieee.NaN Ieee.Inf Ieee.Zero Ieee.Finite; decide

/-- Integers: zero and not, the ends of each range, one that a pattern has exactly. -/
theorem witness_IntegerToFloatConversions :
    (-(2 ^ 63) ≤ (0 : ℤ) ∧ (0 : ℤ) < 2 ^ 63) ∧ (-(2 ^ 63) ≤ (-(2 ^ 63) : ℤ) ∧ (2 ^ 63 - 1 : ℤ) < 2 ^ 63) ∧
    (-(2 ^ 31) ≤ (-(2 ^ 31) : ℤ) ∧ (2 ^ 31 - 1 : ℤ) < 2 ^ 31) ∧ |(-(2 ^ 24) : ℤ)| ≤ 2 ^ 24 ∧
    (∃ q : Word32, binary32.Finite q ∧ binary32.val q = ((1 : ℤ) : ℝ)) ∧
    (∃ q : Word64, binary64.Finite q ∧ binary64.val q = ((1 : ℤ) : ℝ)) := by
  refine ⟨by norm_num, by norm_num, by norm_num, by norm_num, ⟨0x3F800000, ?_, ?_⟩, ⟨0x3FF0000000000000, ?_, ?_⟩⟩
  · unfold Ieee.Finite; decide
  · rw [val_one_s]; norm_num
  · unfold Ieee.Finite; decide
  · rw [val_one_d]; norm_num

/-- `TruncRule` at the boundary of 32 bits: `-2^31` fits, `2^31` does not. -/
theorem witness_FloatToIntegerTruncates :
    (-(2 ^ (32 - 1) : ℤ) ≤ trunc (binary32.val (0xCF000000 : Word32)) ∧
      trunc (binary32.val (0xCF000000 : Word32)) ≤ 2 ^ (32 - 1) - 1) ∧
    2 ^ (32 - 1) - 1 < trunc (binary32.val (0x4F000000 : Word32)) := by
  have h1 : trunc (-2 ^ 31 : ℝ) = -2 ^ 31 := by
    rw [trunc, if_neg (by norm_num)]
    have := Int.ceil_intCast (R := ℝ) (-2147483648)
    norm_num at this ⊢
  have h2 : trunc (2 ^ 31 : ℝ) = 2 ^ 31 := by
    rw [trunc, if_pos (by norm_num)]
    have := Int.floor_intCast (R := ℝ) 2147483648
    norm_num at this ⊢
  rw [val_neg_two_pow_31_s, val_two_pow_31_s, h1, h2]; norm_num

/-! ## Witnesses: mode, status, access, diagnostics, invariant -/

theorem witness_WideInstructionsIgnoreTheMode : allWide (.addD 0 1 31) = true ∧ allWide (.cvtDL 0 0) = true := ⟨rfl, rfl⟩

/-- The mode does change, and the status register too, by each of the transactions named. -/
theorem witness_OnlyTheirTransactionsChangeModeAndStatus :
    ((after (busy []) [.setAddressingMode true]).map (·.full) = some true ∧ (busy []).full = false) ∧
    ((after ((busy []).setMode true) [.reset]).map (·.full) = some false ∧ ((busy []).setMode true).full = true) ∧
    ((after (busy []) [.writeCtl 31 4]).map (·.fcr31) = some 4 ∧ (busy []).fcr31 = 0x00800003) ∧
    (after (busy []) [.reset]).map (·.fcr31) = some 0 := by decide +kernel

/-- To the other mode and to the same one. -/
theorem witness_SetAddressingModeSetsOnlyTheMode :
    (busy [.setAddressingMode true]).inputs = .setAddressingMode true :: [] ∧
    (busy [.setAddressingMode false]).inputs = .setAddressingMode false :: [] ∧ false = (busy []).full := ⟨rfl, rfl, rfl⟩

/-- Writes reported by each end of each group of reported bits, and one that is not by the bits beside them. -/
theorem witness_StatusWriteStoresAndReports :
    (busy [.writeCtl 31 0x01000000]).inputs = .writeCtl 31 0x01000000 :: [] ∧
    (∀ v ∈ ([0x00000001, 0x00000002, 0x00000080, 0x00000800, 0x01000000] : List Word32),
      ∃ k, v.getLsbD k = true ∧ (k ≤ 1 ∨ 7 ≤ k ∧ k ≤ 11 ∨ k = 24)) ∧
    (∀ k, (k ≤ 1 ∨ 7 ≤ k ∧ k ≤ 11 ∨ k = 24) → (0x0083F07C : Word32).getLsbD k = false) := by
  refine ⟨rfl, ?_, ?_⟩
  · simp only [List.forall_mem_cons]
    exact ⟨⟨0, by decide⟩, ⟨1, by decide⟩, ⟨7, by decide⟩, ⟨11, by decide⟩, ⟨24, by decide⟩, by simp⟩
  intro k h
  have hk : k ≤ 24 := by omega
  interval_cases k <;> revert h <;> decide

/-- The defined index, and the undefined ones at the ends of the range. -/
theorem witness_ControlReadsAndUndefinedIndices :
    (busy [.readCtl 31]).inputs = .readCtl 31 :: [] ∧
    ((30 : CtlIx) ≠ 31 ∧ (busy [.readCtl 30]).inputs = .readCtl 30 :: []) ∧
    ((0 : CtlIx) ≠ 31 ∧ (busy [.writeCtl 0 7]).inputs = .writeCtl 0 7 :: []) := by
  refine ⟨rfl, ⟨by decide, rfl⟩, by decide, rfl⟩

theorem witness_Access64IsDirect :
    (busy [.read64 31]).inputs = .read64 31 :: [] ∧ (busy [.write64 0 5]).inputs = .write64 0 5 :: [] := ⟨rfl, rfl⟩

theorem witness_Access32FollowsTheMode :
    (busy [.read32 31]).inputs = .read32 31 :: [] ∧ (busy [.write32 0 5]).inputs = .write32 0 5 :: [] := ⟨rfl, rfl⟩

/-- Both modes under `ModeDependent`, at the first and last even and odd indices: for `Indices32AreDistinctStorage`,
`MixedWidthAccess`, `ViewsShareTheirStorage` and `DoublesAreMadeOfSingles`. -/
theorem witness_modes_and_indices :
    ((busy []).full = false ∧ (busy []).params.singleView = .modeDependent ∧
      (0 : RegIx).toNat % 2 = 0 ∧ (30 : RegIx).toNat % 2 = 0 ∧ (1 : RegIx).toNat % 2 = 1 ∧
      (31 : RegIx).toNat % 2 = 1) ∧
    ((busy []).setMode true).full = true := by decide

/-- `DirectLow`, in Full mode with an odd index and in Half mode with an even one. -/
theorem witness_directLow :
    ({ busy [] with params := ⟨.directLow, 32⟩, full := true } : State).params.singleView = .directLow ∧
    ({ busy [] with params := ⟨.directLow, 32⟩, full := true } : State).full = true ∧
    ({ busy [] with params := ⟨.directLow, 32⟩ } : State).full = false ∧ (30 : RegIx).toNat % 2 = 0 := by decide

/-- Each kind of read; the last by an undefined index; and a second state that agrees on the unit's state. -/
theorem witness_ReadsAreIdempotent :
    (busy [.read32 3]).inputs = .read32 3 :: [] ∧ (busy [.read64 31]).inputs = .read64 31 :: [] ∧
    ((busy [.readCtl 0]).inputs = .readCtl 0 :: [] ∧ (0 : CtlIx) ≠ 31) ∧
    ∀ c : CtlIx, c ≠ 31 → Transaction.readCtl 31 ≠ .readCtl c := by
  refine ⟨rfl, rfl, ⟨rfl, by decide⟩, ?_⟩
  rintro c hc h
  cases h; exact hc rfl

/-- A transaction that reports, and an execution of a defined entry, which does not. -/
theorem witness_DiagnosticsPerTransaction :
    (after (busy []) [.readCtl 0]).map (·.diags) = some [.invalidControlRead 0] ∧
    (after (busy []) [.execute .S 0x46041000 4]).map (·.diags) = some [] := by decide +kernel

/-- A state with status bits set and an event reported meets the invariant, and steps. -/
theorem witness_EveryStepKeepsTheInvariant :
    ((busy [.reset]).diag (.unimplementedStatusBits 3)).Inv ∧
    ∃ t, step ((busy [.reset]).diag (.unimplementedStatusBits 3)) = .next t := by
  refine ⟨⟨by decide, ?_⟩, _, rfl⟩
  intro e he
  have : e = .unimplementedStatusBits 3 := by simpa [busy, halfWith, State.w64] using he
  subst this; decide

end Sys2Proof.Tests
end

section
/-! PROOFS. The two statements of 00_scope.md: steps complete (R15, R69, R199), and `NAN_POLICY` gives NaNs (R6). -/

namespace Sys2Proof.Machine

/-! ## Transactions complete (R15, R199) -/

/-- A control write changes only the status register and the diagnostic output (R42-R44). -/
theorem State.writeCtl_frame (s : State) (c : CtlIx) (v : Word32) :
    (s.writeCtl c v).params = s.params ∧ (s.writeCtl c v).inputs = s.inputs ∧
      (s.writeCtl c v).replies = s.replies := by
  rcases s.writeCtl_cases c v with ⟨-, -, h⟩ | ⟨-, -, h⟩ | ⟨-, h⟩ <;> simp [h]

/-- A control read changes only the diagnostic output (R40, R41). -/
theorem State.readCtl_frame (s : State) (c : CtlIx) :
    (s.readCtl c).2.params = s.params ∧ (s.readCtl c).2.inputs = s.inputs ∧
      (s.readCtl c).2.replies = s.replies := by
  rcases s.readCtl_cases c with ⟨-, h⟩ | ⟨-, h⟩ <;> simp [h]

/-- What every transaction does to the caller's side of the unit: it completes, leaves the parameters and the
pending transactions alone, and returns at most one value. -/
theorem transact_next (tr : Transaction) (s : State) :
    ∃ t, transact tr s = .next t ∧ t.params = s.params ∧ t.inputs = s.inputs ∧
      (t.replies = s.replies ∨ ∃ r, t.replies = s.replies ++ [r]) := by
  cases tr with
  | execute fmt w pc =>
    cases hd : unitDecode fmt w with
    | some i =>
      obtain ⟨t, ht, -, -, hparams, hinputs, hreplies, -⟩ := exec_next i s
      exact ⟨t, (transact_execute_some hd pc s).trans ht, hparams, hinputs, .inl hreplies⟩
    | none => exact ⟨_, transact_execute_none hd pc s, rfl, rfl, .inl rfl⟩
  | read32 i => exact ⟨_, rfl, rfl, rfl, .inr ⟨_, rfl⟩⟩
  | read64 i => exact ⟨_, rfl, rfl, rfl, .inr ⟨_, rfl⟩⟩
  | write32 i v => exact ⟨_, rfl, rfl, rfl, .inl rfl⟩
  | write64 i v => exact ⟨_, rfl, rfl, rfl, .inl rfl⟩
  | readCtl c =>
    obtain ⟨hparams, hinputs, hreplies⟩ := s.readCtl_frame c
    exact ⟨_, rfl, hparams, hinputs, .inr ⟨_, congrArg (· ++ [_]) hreplies⟩⟩
  | writeCtl c v =>
    obtain ⟨hparams, hinputs, hreplies⟩ := s.writeCtl_frame c v
    exact ⟨_, rfl, hparams, hinputs, .inl hreplies⟩
  | setAddressingMode m => exact ⟨_, rfl, rfl, rfl, .inl rfl⟩
  | reset => exact ⟨_, rfl, rfl, rfl, .inl rfl⟩

/-- Settles O12: an idle step stays, and any other runs the oldest transaction on the queue without it. -/
theorem everyStepCompletes : Obligations.EveryStepCompletes := by
  intro s
  cases hq : s.inputs with
  | nil => exact ⟨s, step_nil hq, hq, rfl, .inl rfl, fun _ => rfl⟩
  | cons tr rest =>
    obtain ⟨t, ht, hparams, hinputs, hreplies⟩ := transact_next tr (s.setInputs rest)
    exact ⟨t, (step_cons hq).trans ht, hinputs, hparams, hreplies, fun h => nomatch h⟩

/-! ## The model's NaNs are those of the statements (R110) -/

/-- The widths of a format's fields, as the statements speak of them. -/
def FloatFmt.ieee {w : Nat} (F : FloatFmt w) : Claims.Ieee := ⟨F.expBits, F.fracBits⟩

theorem ieee_fmtS : fmtS.ieee = Claims.binary32 := rfl
theorem ieee_fmtD : fmtD.ieee = Claims.binary64 := rfl

variable {w : Nat} (F : FloatFmt w) (a : BitVec w)

theorem FloatFmt.ieee_exp : F.ieee.exp a = F.expField a := by
  simp [ieee, Claims.Ieee.exp, expField, Nat.shiftRight_eq_div_pow]

theorem FloatFmt.ieee_frac : F.ieee.frac a = F.fracField a := by
  simp [ieee, Claims.Ieee.frac, fracField]

theorem FloatFmt.ieee_NaN_iff : F.ieee.NaN a ↔ F.isNaN a = true := by
  rw [Claims.Ieee.NaN, F.ieee_exp, F.ieee_frac]
  simp [isNaN, expOnes, ieee]

/-- Settles O23: each choice is a NaN by the model's test, which is the statement's. -/
theorem nanPolicyGivesNaNs : Obligations.NanPolicyGivesNaNs := by
  intro op operands
  rw [← ieee_fmtS, ← ieee_fmtD]
  exact ⟨(fmtS.ieee_NaN_iff _).mpr (nanS_isNaN op operands),
    (fmtD.ieee_NaN_iff _).mpr (nanD_isNaN op operands)⟩

end Sys2Proof.Machine
end

section
/-! PROOFS. The statements of 10_state.md on whole steps: the invariant (R45, R194), and which transactions change
the mode and the status register (R23, R24). -/

namespace Sys2Proof.Machine

/-! ## What a transaction and a step can change -/

/-- `t` has the diagnostic output of `s`, or one event more, whose data are those of its kind (R194, R195). -/
def Reports (s t : State) : Prop :=
  t.diags = s.diags ∨ ∃ e, Diag.wf s.params e = true ∧ t.diags = s.diags ++ [e]

theorem Reports.diag (s : State) {e : Diag} (h : e.wf s.params = true) : Reports s (s.diag e) :=
  .inr ⟨e, h, rfl⟩

/-- What a control write does to the status register and the output, with a reported event well formed. -/
theorem State.writeCtl_changes (s : State) (c : CtlIx) (v : Word32) :
    Reports s (s.writeCtl c v) ∧ (s.writeCtl c v).full = s.full ∧
      ((c = 31 ∧ (s.writeCtl c v).fcr31 = statusStored v) ∨ (s.writeCtl c v).fcr31 = s.fcr31) := by
  rcases s.writeCtl_cases c v with ⟨hc, hv, h⟩ | ⟨hc, -, h⟩ | ⟨hc, h⟩ <;> rw [h]
  · exact ⟨.inr ⟨.unimplementedStatusBits v, hv, rfl⟩, rfl, .inl ⟨hc, rfl⟩⟩
  · exact ⟨.inl rfl, rfl, .inl ⟨hc, rfl⟩⟩
  · exact ⟨.diag s (bne_iff_ne.mpr hc), rfl, .inr rfl⟩

/-- A control read leaves the mode and the status register, and reports at most one well-formed event. -/
theorem State.readCtl_changes (s : State) (c : CtlIx) :
    Reports s (s.readCtl c).2 ∧ (s.readCtl c).2.full = s.full ∧ (s.readCtl c).2.fcr31 = s.fcr31 := by
  rcases s.readCtl_cases c with ⟨-, h⟩ | ⟨hc, h⟩ <;> rw [h]
  · exact ⟨.inl rfl, rfl, rfl⟩
  · exact ⟨.diag s (bne_iff_ne.mpr hc), rfl, rfl⟩

/-- Everything a transaction can do to the mode, the status register and the diagnostic output. -/
theorem transact_changes {tr : Transaction} {s t : State} (h : transact tr s = .next t) :
    Reports s t ∧
      ((t.full = s.full ∧ t.fcr31 = s.fcr31) ∨
       (∃ m, tr = .setAddressingMode m ∧ t.full = m ∧ t.fcr31 = s.fcr31) ∨
       (∃ v, tr = .writeCtl 31 v ∧ t.full = s.full ∧ t.fcr31 = statusStored v) ∨
       (tr = .reset ∧ t.full = false ∧ t.fcr31 = 0)) := by
  cases tr with
  | execute fmt w pc =>
    cases hd : unitDecode fmt w with
    | some i =>
      obtain ⟨t', ht, hfull, hfcr, -, -, -, hdiags, -⟩ := exec_next i s
      cases ((transact_execute_some hd pc s).trans ht).symm.trans h
      exact ⟨.inl hdiags, .inl ⟨hfull, hfcr⟩⟩
    | none =>
      cases (transact_execute_none hd pc s).symm.trans h
      exact ⟨.diag s (decide_eq_true (diagAddress_lt s.params pc)), .inl ⟨rfl, rfl⟩⟩
  | read32 | read64 | write32 | write64 =>
    cases h
    exact ⟨.inl rfl, .inl ⟨rfl, rfl⟩⟩
  | readCtl c =>
    cases h
    obtain ⟨hrep, hkept⟩ := s.readCtl_changes c
    exact ⟨hrep, .inl hkept⟩
  | writeCtl c v =>
    cases h
    obtain ⟨hrep, hfull, ⟨rfl, hfcr⟩ | hfcr⟩ := s.writeCtl_changes c v
    · exact ⟨hrep, .inr (.inr (.inl ⟨v, rfl, hfull, hfcr⟩))⟩
    · exact ⟨hrep, .inl ⟨hfull, hfcr⟩⟩
  | setAddressingMode m =>
    cases h
    exact ⟨.inl rfl, .inr (.inl ⟨m, rfl, rfl, rfl⟩)⟩
  | reset =>
    cases h
    exact ⟨.inl rfl, .inr (.inr (.inr ⟨rfl, rfl, rfl⟩))⟩

/-- A transaction keeps the parameters (R5, R8). -/
theorem transact_params {tr : Transaction} {s t : State} (h : transact tr s = .next t) : t.params = s.params := by
  obtain ⟨t', ht, hparams, -⟩ := transact_next tr s
  cases ht.symm.trans h
  exact hparams

/-- A step is idle, or is its oldest transaction on the queue without it. -/
theorem step_cases {s t : State} (h : step s = .next t) :
    (s.inputs = [] ∧ t = s) ∨
      ∃ tr rest, s.inputs = tr :: rest ∧ transact tr (s.setInputs rest) = .next t := by
  cases hq : s.inputs with
  | nil =>
    cases (step_nil hq).symm.trans h
    exact .inl ⟨rfl, rfl⟩
  | cons tr rest => exact .inr ⟨tr, rest, rfl, (step_cons hq).symm.trans h⟩

/-! ## The invariant -/

/-- No status write stores a reserved bit (R42, R45). -/
theorem statusStored_reserved (v : Word32) : statusStored v &&& 0xFE7C0000#32 = 0#32 := by
  have hmask : statusKeepMask &&& 0xFE7C0000#32 = 0#32 := by decide
  rw [statusStored, BitVec.and_assoc, hmask, BitVec.and_zero]

/-- Reporting keeps every event well formed. -/
theorem Reports.wf {s t : State} (h : Reports s t) (hs : ∀ e ∈ s.diags, e.wf s.params = true) :
    ∀ e ∈ t.diags, e.wf s.params = true := by
  rcases h with h | ⟨e, he, h⟩ <;> rw [h]
  · exact hs
  · exact List.forall_mem_append.mpr ⟨hs, List.forall_mem_singleton.mpr he⟩

theorem transact_keeps_inv {tr : Transaction} {s t : State} (hs : s.Inv) (h : transact tr s = .next t) : t.Inv := by
  obtain ⟨hbits, hwf⟩ := hs
  obtain ⟨hrep, hcases⟩ := transact_changes h
  refine ⟨?_, transact_params h ▸ hrep.wf hwf⟩
  rcases hcases with ⟨-, hfcr⟩ | ⟨m, -, -, hfcr⟩ | ⟨v, -, -, hfcr⟩ | ⟨-, -, hfcr⟩ <;> rw [hfcr]
  · exact hbits
  · exact hbits
  · exact statusStored_reserved v
  · exact BitVec.zero_and

/-- Settles O46: an idle step stays, and a transaction stores no reserved bit and reports only well-formed events. -/
theorem everyStepKeepsTheInvariant : Obligations.EveryStepKeepsTheInvariant := by
  intro s t hs h
  rcases step_cases h with ⟨-, rfl⟩ | ⟨tr, rest, -, htr⟩
  · exact hs
  · exact transact_keeps_inv (s := s.setInputs rest) hs htr

/-- Settles O33: of the four things a transaction can do to the mode and the status register, the first
changes neither and the others are the transactions named. -/
theorem onlyTheirTransactionsChangeModeAndStatus : Obligations.OnlyTheirTransactionsChangeModeAndStatus := by
  intro s t h
  rcases step_cases h with ⟨-, rfl⟩ | ⟨tr, rest, hq, htr⟩
  · exact ⟨fun hne => absurd rfl hne, fun hne => absurd rfl hne⟩
  rw [hq, List.head?_cons]
  rcases (transact_changes htr).2 with ⟨hfull, hfcr⟩ | ⟨m, rfl, -, hfcr⟩ | ⟨v, rfl, hfull, -⟩ | ⟨rfl, -⟩
  · exact ⟨fun hne => absurd hfull hne, fun hne => absurd hfcr hne⟩
  · exact ⟨fun _ => .inr ⟨m, rfl⟩, fun hne => absurd hfcr hne⟩
  · exact ⟨fun hne => absurd hfull hne, fun _ => .inr ⟨v, rfl⟩⟩
  · exact ⟨fun _ => .inl rfl, fun _ => .inl rfl⟩

end Sys2Proof.Machine
end

section
/-! PROOFS. The statements of 10_state.md on instructions: none touches the status register (R46), and those with
only 64-bit operands do not read the mode (R22). Both are one fact about updates of what an instruction does not read. -/

namespace Sys2Proof.Machine

/-! ## Updates apart from the register file -/

/-- An update of the state that is apart from the slots and the draw counter: it keeps them, and it may come
before or after a write to either. -/
structure Apart (u : State → State) : Prop where
  slot : ∀ s j, (u s).slot j = s.slot j
  draws : ∀ s, (u s).draws = s.draws
  setSlot : ∀ s j v, (u s).setSlot j v = u (s.setSlot j v)
  countDraw : ∀ s, (u s).countDraw = u s.countDraw

/-- An update that also keeps what a 32-bit or single access reads to find its half: the mode and the parameters. -/
structure ApartFromMode (u : State → State) : Prop extends Apart u where
  full : ∀ s, (u s).full = s.full
  params : ∀ s, (u s).params = s.params

theorem apart_setMode (m : Bool) : Apart (·.setMode m) :=
  ⟨fun _ _ => rfl, fun _ => rfl, fun _ _ _ => rfl, fun _ => rfl⟩

theorem apartFromMode_setStatus (v : Word32) : ApartFromMode (·.setStatus v) :=
  ⟨⟨fun _ _ => rfl, fun _ => rfl, fun _ _ _ => rfl, fun _ => rfl⟩, fun _ => rfl, fun _ => rfl⟩

section
variable {u : State → State} (hu : Apart u) (s : State) (i : RegIx)
include hu

theorem Apart.readHalf (a : RegIx × Bool) : (u s).readHalf a = s.readHalf a := by
  simp only [State.readHalf, hu.slot]

theorem Apart.writeHalf (a : RegIx × Bool) (v : Word32) : (u s).writeHalf a v = u (s.writeHalf a v) := by
  simp only [State.writeHalf, hu.slot, hu.setSlot]

theorem Apart.readFD : (u s).readFD i = s.readFD i := hu.slot s i

theorem Apart.readL : (u s).readL i = s.readL i := congrArg BitVec.toInt (hu.slot s i)

theorem Apart.writeFD (b : Word64) : (u s).writeFD i b = u (s.writeFD i b) := hu.setSlot s i b

theorem Apart.w64 (b : Word64) : (u s).w64 i b = u (s.w64 i b) := hu.setSlot s i b

/-- A conversion to integer draws the same value before the update as after it. -/
theorem Apart.integerOrDraw {w : Nat} (F : FloatFmt w) (fmt : Fmt) (N : Nat) (a : BitVec w) :
    (u s).integerOrDraw F fmt N a = ((s.integerOrDraw F fmt N a).1, u (s.integerOrDraw F fmt N a).2) := by
  unfold State.integerOrDraw
  cases F.toInteger N a with
  | some v => rfl
  | none => simp only [hu.draws, hu.countDraw]

end

section
variable {u : State → State} (hu : ApartFromMode u) (s : State) (i : RegIx)
include hu

theorem ApartFromMode.r32 : (u s).r32 i = s.r32 i := by
  rw [State.r32, hu.full, hu.readHalf, State.r32]

theorem ApartFromMode.readW : (u s).readW i = s.readW i := congrArg BitVec.toInt (hu.r32 s i)

theorem ApartFromMode.w32 (v : Word32) : (u s).w32 i v = u (s.w32 i v) := by
  rw [State.w32, hu.full, hu.writeHalf, State.w32]

theorem ApartFromMode.singleAddr : (u s).singleAddr i = s.singleAddr i := by
  rw [State.singleAddr_eq, hu.full, hu.params, State.singleAddr_eq]

theorem ApartFromMode.readFS : (u s).readFS i = s.readFS i := by
  rw [State.readFS, hu.singleAddr, hu.readHalf, State.readFS]

theorem ApartFromMode.writeFS (b : Word32) : (u s).writeFS i b = u (s.writeFS i b) := by
  rw [State.writeFS, hu.singleAddr, hu.writeHalf, State.writeFS]

end

/-! ## Instructions -/

/-- An instruction with only 64-bit operands may run before or after an update apart from the slots. -/
theorem exec_wide_apart {u : State → State} (hu : Apart u) {i : Instr} (hi : Claims.allWide i = true) (s : State) :
    ∃ t, exec i s = .next t ∧ exec i (u s) = .next (u t) := by
  cases i with
  | addD fd fs ft | subD fd fs ft | mulD fd fs ft | divD fd fs ft =>
    refine ⟨_, rfl, ?_⟩
    simp only [exec, execAddD, execSubD, execMulD, execDivD, State.binaryD, hu.readFD, hu.writeFD]
  | sqrtD fd fs | absD fd fs | movD fd fs | negD fd fs =>
    refine ⟨_, rfl, ?_⟩
    simp only [exec, execSqrtD, execAbsD, execMovD, execNegD, State.unaryD, hu.readFD, hu.writeFD]
  | cvtDL fd fs =>
    refine ⟨_, rfl, ?_⟩
    simp only [exec, execCvtDL, hu.readL, hu.writeFD]
  | cvtLD fd fs =>
    refine ⟨_, rfl, ?_⟩
    simp only [exec, execCvtLD, hu.readFD, hu.integerOrDraw, hu.w64]
  | addS | subS | mulS | divS | sqrtS | absS | movS | negS | cvtDS | cvtWS | cvtLS | cvtSD | cvtWD | cvtSW | cvtDW
  | cvtSL => nomatch hi

/-- Any instruction may run before or after an update that keeps the mode and the parameters too. -/
theorem exec_apartFromMode {u : State → State} (hu : ApartFromMode u) (i : Instr) (s : State) :
    ∃ t, exec i s = .next t ∧ exec i (u s) = .next (u t) := by
  cases i with
  | addD | subD | mulD | divD | sqrtD | absD | movD | negD | cvtDL | cvtLD => exact exec_wide_apart hu.toApart rfl s
  | addS fd fs ft | subS fd fs ft | mulS fd fs ft | divS fd fs ft =>
    refine ⟨_, rfl, ?_⟩
    simp only [exec, execAddS, execSubS, execMulS, execDivS, State.binaryS, hu.readFS, hu.writeFS]
  | sqrtS fd fs | absS fd fs | movS fd fs | negS fd fs =>
    refine ⟨_, rfl, ?_⟩
    simp only [exec, execSqrtS, execAbsS, execMovS, execNegS, State.unaryS, hu.readFS, hu.writeFS]
  | cvtSD fd fs | cvtDS fd fs | cvtSW fd fs | cvtDW fd fs | cvtSL fd fs =>
    refine ⟨_, rfl, ?_⟩
    simp only [exec, execCvtSD, execCvtDS, execCvtSW, execCvtDW, execCvtSL, hu.readFS, hu.readFD, hu.readW, hu.readL,
      hu.writeFS, hu.writeFD]
  | cvtWS fd fs | cvtWD fd fs | cvtLS fd fs =>
    refine ⟨_, rfl, ?_⟩
    simp only [exec, execCvtWS, execCvtWD, execCvtLS, hu.readFS, hu.readFD, hu.integerOrDraw, hu.w32, hu.w64]

/-- Settles O31: replacing the status register is an update apart from all that an instruction reads. -/
theorem instructionsIgnoreTheStatusRegister : Obligations.InstructionsIgnoreTheStatusRegister := by
  intro i s v
  obtain ⟨t, ht, -, hfcr, -⟩ := exec_next i s
  obtain ⟨t', ht', hv⟩ := exec_apartFromMode (apartFromMode_setStatus v) i s
  cases ht.symm.trans ht'
  exact ⟨t, ht, hfcr, hv⟩

/-- Settles O32: replacing the mode is an update apart from the slots and the draw counter, which is all that a
64-bit operand needs. -/
theorem wideInstructionsIgnoreTheMode : Obligations.WideInstructionsIgnoreTheMode :=
  fun _ s m hi => exec_wide_apart (apart_setMode m) hi s

end Sys2Proof.Machine
end

section
/-! PROOFS. The statements of 10_state.md on the mode (R38), the control space (R40-R45), register access (R26-R32)
and the views (R33-R37). -/

namespace Sys2Proof.Machine

open Claims

/-! ## The control space -/

/-- The bits of a stored status (R42). -/
theorem statusStored_getLsbD (v : Word32) {k : Nat} (hk : k < 32) :
    (statusStored v).getLsbD k = (v.getLsbD k && (decide (k ≤ 17) || k == 23 || k == 24)) := by
  have hmask : ∀ k < 32, statusKeepMask.getLsbD k = (decide (k ≤ 17) || k == 23 || k == 24) := by decide
  rw [statusStored, BitVec.getLsbD_and, hmask k hk]

/-- The bits whose writing is reported (R43). -/
theorem statusUnimplMask_getLsbD (k : Nat) :
    statusUnimplMask.getLsbD k = true ↔ k ≤ 1 ∨ 7 ≤ k ∧ k ≤ 11 ∨ k = 24 := by
  rcases lt_or_ge k 32 with hk | hk
  · revert k
    decide
  · rw [BitVec.getLsbD_of_ge _ _ hk]
    simp only [Bool.false_eq_true, false_iff]
    omega

/-- A status write is not reported exactly when none of those bits is set in it (R43). -/
theorem statusReported_eq_false_iff (v : Word32) :
    statusReported v = false ↔ ∀ k, (k ≤ 1 ∨ 7 ≤ k ∧ k ≤ 11 ∨ k = 24) → v.getLsbD k = false := by
  rw [statusReported, bne_eq_false_iff_eq]
  constructor
  · intro h k hk
    have hbit := congrArg (BitVec.getLsbD · k) h
    simpa [(statusUnimplMask_getLsbD k).mpr hk] using hbit
  · intro h
    apply BitVec.eq_of_getLsbD_eq
    intro k _
    rw [BitVec.getLsbD_and, BitVec.getLsbD_zero, Bool.and_eq_false_imp]
    intro hv
    rw [← Bool.not_eq_true, statusUnimplMask_getLsbD]
    exact fun hk => absurd (h k hk) (by simp [hv])

/-- What a status write does besides the report (R42). -/
theorem State.writeCtl_status (s : State) (v : Word32) :
    (statusReported v = true ∧
      s.writeCtl 31 v = (s.setStatus (statusStored v)).diag (.unimplementedStatusBits v)) ∨
    (statusReported v = false ∧ s.writeCtl 31 v = s.setStatus (statusStored v)) := by
  rcases s.writeCtl_cases 31 v with ⟨-, h⟩ | ⟨-, h⟩ | ⟨hc, -⟩
  · exact .inl h
  · exact .inr h
  · exact absurd rfl hc

/-- Settles O35: the stored bits are those of the mask of R42, and the report is by those of the mask of R43. -/
theorem statusWriteStoresAndReports : Obligations.StatusWriteStoresAndReports := by
  intro s v rest hq
  refine ⟨_, step_cons hq, ?_⟩
  rcases (s.setInputs rest).writeCtl_status v with ⟨hv, h⟩ | ⟨hv, h⟩ <;> rw [h]
  · refine ⟨fun _ => rfl, rfl, rfl, rfl, rfl, rfl, fun k hk => statusStored_getLsbD v hk, fun _ => rfl, ?_, rfl⟩
    intro hclear
    exact absurd ((statusReported_eq_false_iff v).mpr hclear) (by simp [hv])
  · refine ⟨fun _ => rfl, rfl, rfl, rfl, rfl, rfl, fun k hk => statusStored_getLsbD v hk, ?_, fun _ => rfl, rfl⟩
    rintro ⟨k, hset, hk⟩
    exact absurd ((statusReported_eq_false_iff v).mp hv k hk) (by simp [hset])

/-- Settles O36, by the two outcomes of a control read and the last outcome of a control write. -/
theorem controlReadsAndUndefinedIndices : Obligations.ControlReadsAndUndefinedIndices := by
  intro s rest
  refine ⟨fun hq => ?_, fun c hc hq => ⟨rfl, ?_⟩, fun c v hc hq => ⟨rfl, ?_⟩⟩ <;> rw [step_cons hq]
  · rfl
  · rcases (s.setInputs rest).readCtl_cases c with ⟨hc', -⟩ | ⟨-, h⟩
    · exact absurd hc' hc
    · simp only [transact, doReadCtl, h]
      rfl
  · rcases (s.setInputs rest).writeCtl_cases c v with ⟨hc', -⟩ | ⟨hc', -⟩ | ⟨-, h⟩
    · exact absurd hc' hc
    · exact absurd hc' hc
    · exact congrArg _ h

/-! ## Registers by R32's table -/

/-- The table of R32 is the model's `addr32`. -/
theorem location_eq_addr32 (low : Bool) : ∀ i, location low i = addr32 low i := by
  cases low <;> decide

/-- A register by R32's table is the half slot at the model's address. -/
theorem reg32_eq_readHalf (low : Bool) (s : State) (i : RegIx) : reg32 low s i = s.readHalf (addr32 low i) := by
  rw [reg32, location_eq_addr32]
  rfl

theorem State.r32_eq_reg32 (s : State) (i : RegIx) : s.r32 i = reg32 s.full s i :=
  (reg32_eq_readHalf s.full s i).symm

/-- A write of half a slot writes the register that R32's table has there, and keeps all else of the file. -/
theorem wrote32_writeHalf (low : Bool) (s : State) (i : RegIx) (v : Word32) :
    Wrote32 low s (s.writeHalf (addr32 low i) v) i v := by
  refine ⟨?_, ?_, ?_⟩
  · rw [reg32_eq_readHalf, State.readHalf_writeHalf, if_pos rfl]
  · rw [location_eq_addr32]
    have hkept := s.readHalf_writeHalf (addr32 low i) ((addr32 low i).1, !(addr32 low i).2) v
    rwa [if_neg fun h => Bool.not_ne_self _ (congrArg Prod.snd h)] at hkept
  · intro j hj
    rw [location_eq_addr32] at hj
    exact (State.slot_setSlot ..).trans (if_neg hj)

/-- Settles O38: the transactions are `r32` and `w32`, which go by the model's address and so by R32's table. -/
theorem access32FollowsTheMode : Obligations.Access32FollowsTheMode := by
  intro s i v rest
  refine ⟨fun hq => ?_, fun hq => ?_⟩
  · rw [step_cons hq, ← State.r32_eq_reg32]
    rfl
  · exact ⟨_, step_cons hq, wrote32_writeHalf s.full (s.setInputs rest) i v, ⟨rfl, rfl, rfl, rfl, rfl, rfl⟩, rfl⟩

/-- Settles O37: a slot read or written whole. -/
theorem access64IsDirect : Obligations.Access64IsDirect := by
  intro s i v rest
  refine ⟨step_cons, fun hq => ⟨_, step_cons hq, ⟨?_, fun j hj => ?_⟩, ⟨rfl, rfl, rfl, rfl, rfl, rfl⟩, rfl⟩⟩
  · exact (State.slot_setSlot ..).trans (if_pos rfl)
  · exact (State.slot_setSlot ..).trans (if_neg hj)

/-- Settles O34: the step is `setMode`, and a later 32-bit read goes by the mode it set. -/
theorem setAddressingModeSetsOnlyTheMode : Obligations.SetAddressingModeSetsOnlyTheMode := by
  intro s m rest hq
  refine ⟨_, step_cons hq, rfl, fun _ => rfl, rfl, rfl, rfl, rfl, rfl, rfl, fun i => ?_, ?_⟩
  · exact State.r32_eq_reg32 _ i
  · rintro rfl
    rfl

/-! ## Storage that 32-bit indices reach (R32) -/

/-- An even slot is not an odd one. -/
theorem odd_ne_evenSlot : ∀ k i : RegIx, k.toNat % 2 = 1 → k ≠ evenSlot i := by decide

/-- In Half mode no 32-bit access reads or writes an odd slot. -/
theorem half_mode_odd_slot_apart {s : State} (hs : s.full = false) {k : RegIx} (hk : k.toNat % 2 = 1) (i : RegIx) :
    (∀ v, (s.w32 i v).slot k = s.slot k) ∧ ∀ u, (s.setSlot k u).r32 i = s.r32 i := by
  have hne := odd_ne_evenSlot k i hk
  refine ⟨fun v => ?_, fun u => ?_⟩
  · rw [State.w32, hs, addr32_half, State.slot_writeHalf, if_neg hne]
  · simp [State.r32, hs, State.readHalf, hne.symm]

/-- In Full mode no 32-bit access reads or writes a high half. -/
theorem full_mode_high_half_apart {s : State} (hs : s.full = true) (k i : RegIx) :
    (∀ v, hiHalf ((s.w32 i v).slot k) = hiHalf (s.slot k)) ∧
      ∀ u, (s.setSlot k (joinHalves u (loHalf (s.slot k)))).r32 i = s.r32 i := by
  refine ⟨fun v => ?_, fun u => ?_⟩ <;> by_cases h : k = i
  · simp [State.w32, hs, State.slot_writeHalf, h]
  · simp [State.w32, hs, State.slot_writeHalf, h]
  · simp [State.r32, hs, State.readHalf, h]
  · simp [State.r32, hs, State.readHalf, Ne.symm h]

/-- Settles O39: addresses are injective in the index, even slots in Half mode and low halves in Full mode. -/
theorem indices32AreDistinctStorage : Obligations.Indices32AreDistinctStorage := by
  refine ⟨State.r32_w32, fun s i v k hs hk => ?_, fun s i v k hs => ?_⟩
  · obtain ⟨hw, hr⟩ := half_mode_odd_slot_apart hs hk i
    exact ⟨hw v, hr⟩
  · obtain ⟨hw, hr⟩ := full_mode_high_half_apart hs k i
    exact ⟨hw v, hr⟩

/-! ## The views (R33-R37) -/

/-- The single view lies where the 32-bit access goes, under `ModeDependent`, in Full mode or at an even index. -/
theorem State.singleAddr_eq_addr32 {s : State} {i : RegIx}
    (h : s.params.singleView = .modeDependent ∨ s.full = true ∨ i.toNat % 2 = 0) :
    s.singleAddr i = addr32 s.full i := by
  have heven : ∀ i : RegIx, i.toNat % 2 = 0 → addr32 true i = addr32 false i := by decide
  rw [State.singleAddr_eq]
  rcases h with h | h | h
  · simp [h]
  · rw [h, Bool.true_or]
  · cases s.full with
    | true => rfl
    | false =>
      cases s.params.singleView with
      | modeDependent => rfl
      | directLow => exact heven i h

/-- Where they coincide, the single view and the 32-bit access read each other's writes. -/
theorem State.single_and_32bit_share {s : State} {i : RegIx}
    (h : s.params.singleView = .modeDependent ∨ s.full = true ∨ i.toNat % 2 = 0) (b : Word32) :
    (s.writeFS i b).r32 i = b ∧ (s.w32 i b).readFS i = b := by
  have haddr := State.singleAddr_eq_addr32 h
  constructor
  · rw [State.r32, State.writeFS, State.writeHalf_full, ← haddr, State.readHalf_writeHalf, if_pos rfl]
  · rw [State.readFS, State.w32, State.singleAddr_writeHalf, haddr, State.readHalf_writeHalf, if_pos rfl]

/-- A 64-bit write is what the double, 64-bit and 64-bit integer views read. -/
theorem State.r64_w64_same (s : State) (i : RegIx) (b : Word64) : (s.w64 i b).r64 i = b :=
  (s.r64_w64 i i b).trans (if_pos rfl)

/-- Settles O41: views of one width go to one place, the single view where R33 says that it does. -/
theorem viewsShareTheirStorage : Obligations.ViewsShareTheirStorage := by
  refine ⟨fun s i c b => ?_, fun s i b hmd => ?_, fun s i b _ h => ?_⟩
  · have h64 := s.r64_w64_same i b
    exact ⟨(s.readFS_writeFS i i c).trans (if_pos rfl), h64, h64, h64, congrArg BitVec.toInt h64⟩
  · obtain ⟨hread, hwrite⟩ := State.single_and_32bit_share (.inl hmd) b
    exact ⟨hread, hwrite, congrArg BitVec.toInt ((s.r32_w32 i i b).trans (if_pos rfl))⟩
  · exact State.single_and_32bit_share (.inr h) b

/-- The addresses of the two singles of a pair in Half mode (R29). -/
theorem addr32_pair : ∀ k : RegIx, k.toNat % 2 = 0 →
    addr32 false k = (k, false) ∧ addr32 false (k + 1) = (k, true) := by decide

/-- Settles O42: the singles of a pair are the two halves of its slot. -/
theorem doublesAreMadeOfSingles : Obligations.DoublesAreMadeOfSingles := by
  refine ⟨fun s k hs hmd hk => ?_, fun s i hs => ?_⟩
  · obtain ⟨hlo, hhi⟩ := addr32_pair k hk
    rw [State.readFS, State.readFS, State.singleAddr_eq_addr32 (.inl hmd), State.singleAddr_eq_addr32 (.inl hmd),
      hs, hlo, hhi]
    exact (joinHalves_halves (s.slot k)).symm
  · rw [State.readFS, State.singleAddr_eq_addr32 (.inr (.inl hs)), hs]
    rfl

end Sys2Proof.Machine
end

section
/-! PROOFS. The statements of 20_memory.md: what a read sees after a write of another width (R64), and that reads
are idempotent (R68). -/

namespace Sys2Proof.Machine

/-! ## 32-bit registers as halves of slots (R62, R64) -/

/-- In Full mode a 32-bit register is the low half of its slot. -/
theorem State.r32_of_full {s : State} (hs : s.full = true) (i : RegIx) : s.r32 i = loHalf (s.slot i) := by
  rw [State.r32, hs]
  rfl

/-- In Half mode the two 32-bit registers of a pair are the low and the high half of its even slot. -/
theorem State.r32_pair {s : State} (hs : s.full = false) {k : RegIx} (hk : k.toNat % 2 = 0) :
    s.r32 k = loHalf (s.slot k) ∧ s.r32 (k + 1) = hiHalf (s.slot k) := by
  obtain ⟨hlo, hhi⟩ := addr32_pair k hk
  rw [State.r32, State.r32, hs, hlo, hhi]
  exact ⟨rfl, rfl⟩

/-- The second register of a pair has an odd index. -/
theorem succ_odd_of_even : ∀ k : RegIx, k.toNat % 2 = 0 → (k + 1).toNat % 2 = 1 := by decide

/-- In Full mode a 32-bit write replaces the low half of its slot and keeps the high one. -/
theorem State.r64_w32_of_full {s : State} (hs : s.full = true) (i : RegIx) (a : Word32) :
    (s.w32 i a).r64 i = joinHalves (hiHalf (s.slot i)) a := by
  rw [State.w32, hs, addr32_full, State.r64, State.slot_writeHalf, if_pos rfl]
  rfl

/-- In Half mode the even slot of a pair is its two 32-bit registers. -/
theorem State.r64_eq_joinHalves_r32 {s : State} (hs : s.full = false) {k : RegIx} (hk : k.toNat % 2 = 0) :
    s.r64 k = joinHalves (s.r32 (k + 1)) (s.r32 k) := by
  obtain ⟨hlo, hhi⟩ := State.r32_pair hs hk
  rw [hlo, hhi, joinHalves_halves, State.r64]

/-- In Half mode the 32-bit writes to both registers of a pair are what a 64-bit read of its even slot sees. -/
theorem State.r64_w32_pair {s : State} (hs : s.full = false) {k : RegIx} (hk : k.toNat % 2 = 0) (a b : Word32) :
    ((s.w32 k a).w32 (k + 1) b).r64 k = joinHalves b a := by
  have hne : k ≠ k + 1 := fun h => by
    have hodd := succ_odd_of_even k hk
    rw [← h, hk] at hodd
    exact absurd hodd (by decide)
  rw [State.r64_eq_joinHalves_r32 (s := (s.w32 k a).w32 (k + 1) b) hs hk]
  simp only [State.r32_w32, if_neg hne, if_true]

/-- Settles O40: 32-bit registers are halves of slots by the mode, and in Half mode of even slots only. -/
theorem mixedWidthAccess : Obligations.MixedWidthAccess := by
  refine ⟨State.r64_w64_same, fun s i v hs => ?_, fun _ i a hs => State.r64_w32_of_full hs i a, fun s k hs hk => ?_⟩
  · rw [State.r32_of_full (s := s.w64 i v) hs]
    exact congrArg loHalf (s.r64_w64_same i v)
  have hodd := succ_odd_of_even k hk
  obtain ⟨hodd_kept, hodd_unread⟩ := half_mode_odd_slot_apart hs hodd (k + 1)
  refine ⟨fun v => ?_, fun v => ?_, hodd_kept, State.r64_w32_pair hs hk⟩
  · obtain ⟨hlo, hhi⟩ := State.r32_pair (s := s.w64 k v) hs hk
    have hslot : (s.w64 k v).slot k = v := s.r64_w64_same k v
    rw [hlo, hhi, hslot]
    exact ⟨rfl, rfl⟩
  · exact (hodd_unread v).trans (State.r32_pair hs hk).2

/-! ## Reads (R68) -/

/-- The slots, the mode and the status register of `t` are those of `s`: all the state that a read depends on. -/
structure SameUnit (s t : State) : Prop where
  slot : ∀ j, t.slot j = s.slot j
  full : t.full = s.full
  fcr31 : t.fcr31 = s.fcr31

/-- A control read returns the status register at its index and 0 elsewhere (R40, R41). -/
theorem State.readCtl_value (s : State) (c : CtlIx) : (s.readCtl c).1 = if c = 31 then s.fcr31 else 0 := by
  rcases s.readCtl_cases c with ⟨hc, h⟩ | ⟨hc, h⟩ <;> rw [h]
  · exact (if_pos hc).symm
  · exact (if_neg hc).symm

section
variable {s t : State} (h : SameUnit s t)
include h

theorem SameUnit.r32 (i : RegIx) : t.r32 i = s.r32 i := by
  rw [State.r32, State.readHalf, h.full, h.slot, State.r32, State.readHalf]

theorem SameUnit.r64 (i : RegIx) : t.r64 i = s.r64 i := h.slot i

theorem SameUnit.readCtl (c : CtlIx) : (t.readCtl c).1 = (s.readCtl c).1 := by
  rw [State.readCtl_value, State.readCtl_value, h.fcr31]

end

/-- A control read leaves the unit's state, and reports exactly the undefined indices (R40, R41). -/
theorem State.readCtl_effect (s : State) (c : CtlIx) :
    SameUnit s (s.readCtl c).2 ∧ (c = 31 → (s.readCtl c).2.diags = s.diags) ∧
      (c ≠ 31 → (s.readCtl c).2.diags = s.diags ++ [.invalidControlRead c]) := by
  rcases s.readCtl_cases c with ⟨hc, h⟩ | ⟨hc, h⟩ <;> rw [h]
  · exact ⟨⟨fun _ => rfl, rfl, rfl⟩, fun _ => rfl, fun hne => absurd hc hne⟩
  · exact ⟨⟨fun _ => rfl, rfl, rfl⟩, fun heq => absurd heq hc, fun _ => rfl⟩

/-- A control read appends the one value that it read to the replies. -/
theorem doReadCtl_replies (c : CtlIx) (s : State) :
    (doReadCtl c s).replies = s.replies ++ [.bits32 (s.readCtl c).1] := by
  obtain ⟨-, -, hreplies⟩ := s.readCtl_frame c
  exact congrArg (· ++ [_]) hreplies

/-- Settles O43: each read returns a value of the unit's state alone, and only a control read may report. -/
theorem readsAreIdempotent : Obligations.ReadsAreIdempotent := by
  intro s rd rest hrd hq
  rcases hrd with ⟨i, rfl⟩ | ⟨i, rfl⟩ | ⟨c, rfl⟩
  · refine ⟨_, .bits32 (s.r32 i), step_cons hq, rfl, fun _ => rfl, rfl, rfl, fun _ => rfl, nofun, ?_⟩
    intro u rest' hslot hfull hfcr hu
    have hread := SameUnit.r32 ⟨hslot, hfull, hfcr⟩ i
    exact ⟨_, step_cons hu, congrArg (u.replies ++ [.bits32 ·]) hread⟩
  · refine ⟨_, .bits64 (s.r64 i), step_cons hq, rfl, fun _ => rfl, rfl, rfl, fun _ => rfl, nofun, ?_⟩
    intro u rest' hslot hfull hfcr hu
    have hread := SameUnit.r64 ⟨hslot, hfull, hfcr⟩ i
    exact ⟨_, step_cons hu, congrArg (u.replies ++ [.bits64 ·]) hread⟩
  · obtain ⟨⟨hslot, hfull, hfcr⟩, hdefined, hundefined⟩ := (s.setInputs rest).readCtl_effect c
    refine ⟨_, _, step_cons hq, doReadCtl_replies c _, hslot, hfull, hfcr, ?_, ?_, ?_⟩
    · exact fun hc => hdefined (by_contra fun hne => hc c hne rfl)
    · rintro c' hne ⟨⟩
      exact ⟨_, hundefined hne⟩
    · intro u rest' hslot hfull hfcr hu
      have hread := SameUnit.readCtl (s := s.setInputs rest) (t := u.setInputs rest') ⟨hslot, hfull, hfcr⟩ c
      exact ⟨_, step_cons hu, (doReadCtl_replies c _).trans (congrArg (u.replies ++ [.bits32 ·]) hread)⟩

end Sys2Proof.Machine
end

section
/-! PROOFS. The statements of 30_encoding.md, and those on steps that rest on them: an instruction is one entry of
its format's table (R85-R90), unread bits choose none (R83, R91), and the encoder inverts the decoder (R95). -/

namespace Sys2Proof

open Claims

/-! ## Table entries are instructions (R86-R90) -/

/-- Which instruction a table entry is: the one of that format and function code, with the register fields filled
in, `ft` only where it is read. So the encoder's tables and the decoder's agree, in both directions. -/
theorem tableEntry_eq_some_iff {fmt : Fmt} {funct : BitVec 6} {fd fs ft : RegIx} {i : Instr} :
    tableEntry fmt funct fd fs ft = some i ↔
      fmtOf i = fmt ∧ functOf i = funct ∧ fdOf i = fd ∧ fsOf i = fs ∧ (readsFt i = true → ftOf i = ft) := by
  constructor
  · intro h
    cases fmt
    all_goals
      simp only [tableEntry, tableS, tableD, tableW, tableL] at h
      split at h <;> cases h <;> simp [fmtOf, functOf, fdOf, fsOf, ftOf, readsFt]
  · rintro ⟨rfl, rfl, rfl, rfl, hft⟩
    cases i with
    | addS | subS | mulS | divS | addD | subD | mulD | divD => rw [← hft rfl]; rfl
    | sqrtS | absS | movS | negS | cvtDS | cvtWS | cvtLS | sqrtD | absD | movD | negD | cvtSD | cvtWD | cvtLD
    | cvtSW | cvtDW | cvtSL | cvtDL => rfl

/-- The dispatch finds the instruction whose format, code and read register fields are those of the word (R85). -/
theorem unitDecode_eq_some_iff {fmt : Fmt} {w : Word32} {i : Instr} :
    unitDecode fmt w = some i ↔
      fmtOf i = fmt ∧ functOf i = functField w ∧ fdOf i = fdField w ∧ fsOf i = fsField w ∧
        (readsFt i = true → ftOf i = ftField w) := tableEntry_eq_some_iff

/-- Where `ft` is not read, the encoder writes 0 (R91). -/
theorem ftOf_of_not_readsFt {i : Instr} (h : readsFt i = false) : ftOf i = 0 := by
  cases i with
  | addS | subS | mulS | divS | addD | subD | mulD | divD => nomatch h
  | sqrtS | absS | movS | negS | cvtDS | cvtWS | cvtLS | sqrtD | absD | movD | negD | cvtSD | cvtWD | cvtLD
  | cvtSW | cvtDW | cvtSL | cvtDL => rfl

/-- The function code of an instruction is a listed one. -/
theorem functOf_mem_definedFuncts (i : Instr) : (functOf i).toNat ∈ definedFuncts (fmtOf i) := by
  cases i <;> simp [functOf, fmtOf, definedFuncts]

/-- A listed function code has an entry, whatever the register fields. -/
theorem exists_tableEntry_of_mem {fmt : Fmt} {n : Nat} (h : n ∈ definedFuncts fmt) (fd fs ft : RegIx) :
    ∃ i, tableEntry fmt (BitVec.ofNat 6 n) fd fs ft = some i := by
  cases fmt <;> fin_cases h <;> exact ⟨_, rfl⟩

/-- The function field, as the statements write it. -/
theorem functField_toNat (w : Word32) : (functField w).toNat = w.toNat % 64 := by
  simp [functField]

/-- Settles O8: each instruction has a listed code, and each listed code an entry. -/
theorem definedEntriesAreTheListedOnes : Obligations.DefinedEntriesAreTheListedOnes := by
  intro fmt w
  rw [Defined, ← functField_toNat]
  constructor
  · rintro ⟨i, hi⟩
    obtain ⟨rfl, hfunct, -⟩ := unitDecode_eq_some_iff.mp hi
    exact hfunct ▸ functOf_mem_definedFuncts i
  · intro h
    simpa [unitDecode] using exists_tableEntry_of_mem h (fdField w) (fsField w) (ftField w)

/-! ## Unread bits (R83, R91) -/

/-- Words that agree in their low `n` bits have the same fields there. -/
theorem field_eq_of_low_eq {n : Nat} {x y : Word32} (h : x.setWidth n = y.setWidth n) {start len : Nat}
    (hle : start + len ≤ n) : x.extractLsb' start len = y.extractLsb' start len := by
  rw [← BitVec.extractLsb'_setWidth_of_le (b := x) hle, h, BitVec.extractLsb'_setWidth_of_le hle]

/-- Bits 20:0 choose the instruction (R83). -/
theorem unitDecode_eq_of_low21 (fmt : Fmt) {x y : Word32} (h : x.setWidth 21 = y.setWidth 21) :
    unitDecode fmt x = unitDecode fmt y := by
  have hfunct : functField x = functField y := field_eq_of_low_eq h (by decide)
  have hfd : fdField x = fdField y := field_eq_of_low_eq h (by decide)
  have hfs : fsField x = fsField y := field_eq_of_low_eq h (by decide)
  have hft : ftField x = ftField y := field_eq_of_low_eq h (by decide)
  rw [unitDecode, hfunct, hfd, hfs, hft, unitDecode]

/-- Bits 15:0 choose an instruction that does not read `ft` (R91). -/
theorem unitDecode_of_low16 {fmt : Fmt} {x y : Word32} {i : Instr} (h : x.setWidth 16 = y.setWidth 16)
    (hi : readsFt i = false) (hx : unitDecode fmt x = some i) : unitDecode fmt y = some i := by
  obtain ⟨hfmt, hfunct, hfd, hfs, -⟩ := unitDecode_eq_some_iff.mp hx
  exact unitDecode_eq_some_iff.mpr
    ⟨hfmt, hfunct.trans (field_eq_of_low_eq h (by decide)), hfd.trans (field_eq_of_low_eq h (by decide)),
      hfs.trans (field_eq_of_low_eq h (by decide)), fun hft => nomatch hi.symm.trans hft⟩

/-- Settles O7: the dispatch goes by bits 20:0, or 15:0 where `ft` is not read, and a defined entry acts by the
instruction alone. -/
theorem unreadBitsHaveNoEffect : Obligations.UnreadBitsHaveNoEffect := by
  intro fmt x y
  refine ⟨fun h => ?_, fun h i hx hi => unitDecode_of_low16 h hi hx⟩
  have hxy := unitDecode_eq_of_low21 fmt h
  refine ⟨hxy, fun hdef pcx pcy s => ?_⟩
  obtain ⟨i, hx⟩ := (definedEntriesAreTheListedOnes fmt x).mpr hdef
  exact (Machine.transact_execute_some hx pcx s).trans (Machine.transact_execute_some (hxy ▸ hx) pcy s).symm

/-! ## Whole words (R95) -/

/-- A caller derives a format from exactly the COP1 words with its code (R84, R95). -/
theorem selectorOf_eq_ok_iff {w : Word32} {fmt : Fmt} :
    selectorOf w = .ok fmt ↔ majorField w = 0b010001#6 ∧ fmtCodeField w = codeOfFmt fmt := by
  have hcode : fmtOfCode (fmtCodeField w) = some fmt ↔ fmtCodeField w = codeOfFmt fmt :=
    ⟨fun h => (codeOfFmt_of_fmtOfCode h).symm, fun h => h ▸ fmtOfCode_codeOfFmt fmt⟩
  rw [← hcode, selectorOf]
  by_cases hmajor : majorField w = 0b010001#6
  · cases h : fmtOfCode (fmtCodeField w) <;> simp [hmajor]
  · simp [hmajor]

/-- A whole word decodes by the caller's selector and then the unit's dispatch (R95). -/
theorem decodeTableWord_eq_some_iff {w : Word32} {i : Instr} :
    decodeTableWord 32 w.toNat = some i ↔ ∃ fmt, selectorOf w = .ok fmt ∧ unitDecode fmt w = some i := by
  rw [decodeTableWord, tableWord_toNat, decodeWord]
  cases hsel : selectorOf w with
  | error e => simp
  | ok fmt => cases h : unitDecode fmt w <;> simp [h]

/-- The unit dispatches an encoded instruction to that instruction (R85). -/
theorem unitDecode_encode (i : Instr) : unitDecode (fmtOf i) (encode i) = some i := by
  simp [unitDecode_eq_some_iff, encode]

/-- A caller derives an instruction's format from its encoding (R95). -/
theorem selectorOf_encode (i : Instr) : selectorOf (encode i) = .ok (fmtOf i) := by
  simp [selectorOf_eq_ok_iff, encode]

/-- Settles O5: an encoding has the fields it was assembled from, and they choose the instruction's own entry. -/
theorem decodeOfEncodeIsTheInstruction : Obligations.DecodeOfEncodeIsTheInstruction :=
  fun i => ⟨unitDecode_encode i, decodeTableWord_eq_some_iff.mpr ⟨_, selectorOf_encode i, unitDecode_encode i⟩⟩

/-! ## Words by their fields (R81, R82), and the words of the instruction rules (R120-R137, R160-R169) -/

section
variable (m m' : BitVec 6) (c c' ft ft' fs fs' fd fd' : BitVec 5) (funct funct' : BitVec 6)

/-- A word by its six fields (R81-R84), whatever its major opcode. -/
def joinFields : Word32 := m ++ c ++ ft ++ fs ++ fd ++ funct

theorem assemble_eq_joinFields :
    assemble c ft fs fd funct = joinFields 0b010001#6 c ft fs fd funct := rfl

/-- Words are masked field by field. -/
theorem joinFields_and : joinFields m c ft fs fd funct &&& joinFields m' c' ft' fs' fd' funct' =
    joinFields (m &&& m') (c &&& c') (ft &&& ft') (fs &&& fs') (fd &&& fd') (funct &&& funct') := by
  simp only [joinFields, ← BitVec.and_append]

/-- Words are joined field by field. -/
theorem joinFields_or : joinFields m c ft fs fd funct ||| joinFields m' c' ft' fs' fd' funct' =
    joinFields (m ||| m') (c ||| c') (ft ||| ft') (fs ||| fs') (fd ||| fd') (funct ||| funct') := by
  simp only [joinFields, ← BitVec.or_append]

/-- The mask of bits 20:16 clears `ft` and keeps every other field. -/
theorem assemble_and_clearFt :
    assemble c ft fs fd funct &&& 0xFFE0FFFF = assemble c 0 fs fd funct := by
  have hmask : (0xFFE0FFFF : Word32) = joinFields (BitVec.allOnes 6) (BitVec.allOnes 5) 0 (BitVec.allOnes 5)
      (BitVec.allOnes 5) (BitVec.allOnes 6) := by decide
  rw [hmask, assemble_eq_joinFields, joinFields_and]
  simp only [BitVec.and_allOnes, BitVec.ofNat_eq_ofNat, BitVec.and_zero, assemble_eq_joinFields]

end

/-- Settles O6: a word that decodes is a COP1 word, so it is the one its fields assemble, and they are the
instruction's but for an unread `ft`. -/
theorem decodedWordIsTheEncoding : Obligations.DecodedWordIsTheEncoding := by
  intro w i h
  obtain ⟨fmt, hsel, hdec⟩ := decodeTableWord_eq_some_iff.mp h
  obtain ⟨hmajor, hcode⟩ := selectorOf_eq_ok_iff.mp hsel
  obtain ⟨rfl, hfunct, hfd, hfs, hft⟩ := unitDecode_eq_some_iff.mp hdec
  have hw := assemble_fields w hmajor
  cases hreads : readsFt i with
  | true => rw [if_pos rfl, encode, ← hcode, hft hreads, hfs, hfd, hfunct, hw]
  | false =>
    rw [if_neg Bool.false_ne_true, encode, ← hcode, ftOf_of_not_readsFt hreads, hfs, hfd, hfunct,
      ← assemble_and_clearFt, hw]

/-- A word from its fields is the one with no register, and the registers in their places. -/
theorem assemble_eq_wordOf {c : BitVec 5} {funct : BitVec 6} {base : Word32}
    (hbase : assemble c 0 0 0 funct = base) (ft fs fd : RegIx) :
    assemble c ft fs fd funct = wordOf base ft fs fd := by
  have hft : ∀ r : RegIx, r.setWidth 32 <<< 16 = joinFields 0 0 r 0 0 0 := by decide
  have hfs : ∀ r : RegIx, r.setWidth 32 <<< 11 = joinFields 0 0 0 r 0 0 := by decide
  have hfd : ∀ r : RegIx, r.setWidth 32 <<< 6 = joinFields 0 0 0 0 r 0 := by decide
  rw [← hbase, wordOf, hft, hfs, hfd]
  simp [assemble_eq_joinFields, joinFields_or]

/-- Settles O4: the base word of each rule is that of the instruction's format and function code. -/
theorem encodedWordsAreTheRules : Obligations.EncodedWordsAreTheRules := by
  intro fd fs ft
  simp only [encode, codeOfFmt, fmtOf, functOf, ftOf, fsOf, fdOf]
  and_intros <;> exact assemble_eq_wordOf (by decide) ..

/-- Settles O3: the decoder, run on each word. -/
theorem sampleWordsDecode : Obligations.SampleWordsDecode := by
  unfold Obligations.SampleWordsDecode
  decide

/-! ## Steps (R85) -/

/-- Settles O10: the step is the transaction, and the transaction the instruction. -/
theorem stepRunsTheDecodedInstruction : Obligations.StepRunsTheDecodedInstruction :=
  fun _ _ _ _ _ _ hq hi => (Machine.step_cons hq).trans (Machine.transact_execute_some hi _ _)

/-- A placed encoding is an `execute` of it in front of what is pending (R95; assumptions 1 and 8). -/
theorem withFetchWord_encode (s : Machine.State) (i : Instr) :
    s.withFetchWord 32 (encode i).toNat =
      s.setInputs (.execute (fmtOf i) (encode i) Machine.fetchPcIn :: s.inputs) := by
  simp [Machine.State.withFetchWord, Machine.State.presentWord, selectorOf_encode]

/-- Settles O11: the placed transaction is the oldest one, and its word decodes to the instruction. -/
theorem placedWordRunsNext : Obligations.PlacedWordRunsNext := by
  intro s i
  rw [withFetchWord_encode]
  exact stepRunsTheDecodedInstruction _ _ _ _ _ _ rfl (unitDecode_encode i)

end Sys2Proof
end

section
/-! PROOFS. The statements of 40_fp_arith.md on instructions: where each one writes (R113, R154), and the results of
the single and the double arithmetic instructions, in their places (R120-R137). -/

namespace Sys2Proof.Machine

open Claims

/-! ## The slot an instruction writes (R31, R32) -/

/-- The slot of a 32-bit register by R32's table: the one of its index, or the even one of the pair of an odd index. -/
theorem addr32_slot (low : Bool) :
    ∀ i, (addr32 low i).1 = i ∨ (low = false ∧ i.toNat % 2 = 1 ∧ (addr32 low i).1 = i - 1) := by
  cases low <;> decide

/-- A write of half a slot changes no slot but the one at its address. -/
theorem State.eq_of_slot_writeHalf_ne {s : State} {a : RegIx × Bool} {v : Word32} {j : RegIx}
    (h : (s.writeHalf a v).slot j ≠ s.slot j) : j = a.1 := by
  by_contra hj
  exact h ((State.slot_setSlot ..).trans (if_neg hj))

/-- A 64-bit write changes no slot but its own. -/
theorem State.eq_of_slot_w64_ne {s : State} {i j : RegIx} {v : Word64}
    (h : (s.w64 i v).slot j ≠ s.slot j) : j = i := by
  by_contra hj
  exact h ((State.slot_setSlot ..).trans (if_neg hj))

/-- The slots that an instruction with destination `fd` may change, in the mode of `s`. -/
def MayChange (s : State) (fd j : RegIx) : Prop :=
  j = fd ∨ (s.full = false ∧ fd.toNat % 2 = 1 ∧ j = fd - 1)

/-- A write at the 32-bit address of `fd`, whether by the mode or by the low halves, is to one of these slots. -/
theorem mayChange_of_addr32 {s : State} {low : Bool} (hlow : low = false → s.full = false) {fd j : RegIx}
    (hj : j = (addr32 low fd).1) : MayChange s fd j := by
  subst hj
  exact (addr32_slot low fd).imp id fun ⟨hl, hodd, h⟩ => ⟨hlow hl, hodd, h⟩

/-- A single write changes no other slots. -/
theorem State.mayChange_of_writeFS {s : State} {fd j : RegIx} {b : Word32}
    (h : (s.writeFS fd b).slot j ≠ s.slot j) : MayChange s fd j := by
  have hj := State.eq_of_slot_writeHalf_ne h
  rw [State.singleAddr_eq] at hj
  exact mayChange_of_addr32 (fun hlow => (Bool.or_eq_false_iff.mp hlow).1) hj

/-- Nor does a 32-bit write. -/
theorem State.mayChange_of_w32 {s : State} {fd j : RegIx} {v : Word32}
    (h : (s.w32 fd v).slot j ≠ s.slot j) : MayChange s fd j :=
  mayChange_of_addr32 id (State.eq_of_slot_writeHalf_ne h)

/-- Settles O13: an instruction is at most one draw and one write by one of the four views (`exec_cases`). -/
theorem instructionsChangeOnlyTheirDestination : Obligations.InstructionsChangeOnlyTheirDestination := by
  intro i s
  obtain ⟨t, ht, hfull, hfcr31, hparams, hinputs, hreplies, hdiags, hdraws⟩ := exec_next i s
  refine ⟨t, ht, ⟨hfull, hfcr31, hparams, hinputs, hreplies, hdiags⟩, hdraws, fun j hj => ?_⟩
  change MayChange s (fdOf i) j
  obtain ⟨s', hs', hw⟩ := exec_cases i s
  have hslot : s'.slot j = s.slot j := by rcases hs' with rfl | rfl <;> rfl
  have hmode : MayChange s' (fdOf i) j → MayChange s (fdOf i) j := by rcases hs' with rfl | rfl <;> exact id
  rw [← hslot] at hj
  rcases hw with ⟨b, h⟩ | ⟨b, h⟩ | ⟨v, h⟩ | ⟨v, h⟩ <;> cases ht.symm.trans h
  · exact hmode (State.mayChange_of_writeFS hj)
  · exact .inl (State.eq_of_slot_w64_ne hj)
  · exact hmode (State.mayChange_of_w32 hj)
  · exact .inl (State.eq_of_slot_w64_ne hj)

/-! ## Results and frames, by the view of the destination -/

/-- The single view of the model is that of the statements (R33). -/
theorem State.readFS_eq_single (s : State) (i : RegIx) : s.readFS i = single s i := by
  rw [State.readFS, State.singleAddr_eq, ← reg32_eq_readHalf]
  rfl

/-- An instruction that ends in a single write sets a single register and nothing else. -/
theorem setsSingle_of_writeFS {i : Instr} {s : State} {fd : RegIx} {v : Word32}
    (h : exec i s = .next (s.writeFS fd v)) : SetsSingle i s fd v := by
  refine ⟨_, h, ?_, ⟨rfl, rfl, rfl, rfl, rfl, rfl⟩, rfl⟩
  rw [State.writeFS, State.singleAddr_eq]
  exact wrote32_writeHalf (lowView s) s fd v

/-- An instruction that ends in a double write sets a slot and nothing else. -/
theorem setsDouble_of_writeFD {i : Instr} {s : State} {fd : RegIx} {v : Word64}
    (h : exec i s = .next (s.writeFD fd v)) : SetsDouble i s fd v :=
  ⟨_, h, ⟨(s.r64_w64 fd fd v).trans (if_pos rfl), fun j hj => (s.r64_w64 fd j v).trans (if_neg hj)⟩,
    ⟨rfl, rfl, rfl, rfl, rfl, rfl⟩, rfl⟩

/-- single ← single op single. -/
theorem setsSingle_of_binaryS {i : Instr} {s : State} {op : Word32 → Word32 → Word32} {fd fs ft : RegIx}
    (h : exec i s = .next (s.binaryS op fd fs ft)) : SetsSingle i s fd (op (single s fs) (single s ft)) := by
  rw [← s.readFS_eq_single, ← s.readFS_eq_single]
  exact setsSingle_of_writeFS h

/-- single ← op single. -/
theorem setsSingle_of_unaryS {i : Instr} {s : State} {op : Word32 → Word32} {fd fs : RegIx}
    (h : exec i s = .next (s.unaryS op fd fs)) : SetsSingle i s fd (op (single s fs)) := by
  rw [← s.readFS_eq_single]
  exact setsSingle_of_writeFS h

/-! ## The arithmetic instructions -/

/-- Settles O14: each is a `binaryS` of its operation. -/
theorem singleBinaryResults : Obligations.SingleBinaryResults := fun _ _ _ _ =>
  ⟨setsSingle_of_binaryS rfl, setsSingle_of_binaryS rfl, setsSingle_of_binaryS rfl, setsSingle_of_binaryS rfl⟩

/-- Settles O15: each is a `unaryS` of its operation, and the sign-bit masks are those of binary32. -/
theorem singleUnaryResults : Obligations.SingleUnaryResults := by
  intro s fd fs
  have hkeep : ~~~fmtS.signBit = 0x7FFFFFFF := by decide
  have hflip : fmtS.signBit = 0x80000000 := by decide
  rw [← hkeep, ← hflip]
  exact ⟨setsSingle_of_unaryS rfl, setsSingle_of_unaryS (op := fmtS.fabs) rfl, setsSingle_of_unaryS (op := id) rfl,
    setsSingle_of_unaryS (op := fmtS.fneg) rfl⟩

/-- Settles O16: each is a write of slot `fd`, with its operation of the slots read. -/
theorem doubleBinaryResults : Obligations.DoubleBinaryResults := fun _ _ _ _ =>
  ⟨setsDouble_of_writeFD rfl, setsDouble_of_writeFD rfl, setsDouble_of_writeFD rfl, setsDouble_of_writeFD rfl⟩

/-- Settles O17: likewise with one operand, and the sign-bit masks are those of binary64. -/
theorem doubleUnaryResults : Obligations.DoubleUnaryResults := by
  intro s fd fs
  have hkeep : ~~~fmtD.signBit = 0x7FFFFFFFFFFFFFFF := by decide
  have hflip : fmtD.signBit = 0x8000000000000000 := by decide
  rw [← hkeep, ← hflip]
  exact ⟨setsDouble_of_writeFD rfl, setsDouble_of_writeFD rfl, setsDouble_of_writeFD rfl, setsDouble_of_writeFD rfl⟩

end Sys2Proof.Machine
end

section
/-! PROOFS. The model's formats as IEEE 754 formats (R110, R111): the classes of the statements are the model's, the
units of a pattern are its real value, and a rounded exact magnitude is the statements' rounded real number. -/

namespace Sys2Proof.Machine

open Claims

variable {w : Nat} {F : FloatFmt w} {a b : BitVec w}

/-! ## Classes of patterns (R110) -/

theorem FloatFmt.ieee_Inf_iff : F.ieee.Inf a ↔ F.isInf a = true := by
  rw [Ieee.Inf, F.ieee_exp, F.ieee_frac]
  simp [isInf, expOnes, ieee]

theorem FloatFmt.ieee_Zero_iff : F.ieee.Zero a ↔ F.isZero a = true := by
  rw [Ieee.Zero, F.ieee_exp, F.ieee_frac]
  simp [isZero]

theorem FloatFmt.ieee_Finite_iff : F.ieee.Finite a ↔ F.isFinite a = true := by
  rw [Ieee.Finite, F.ieee_exp]
  simp [isFinite, expOnes, ieee]

/-- The classes of the statements as ranges of magnitude patterns. -/
theorem FloatFmt.ieee_NaN_iff_mag : F.ieee.NaN a ↔ F.infPattern < F.magPattern a :=
  (F.ieee_NaN_iff a).trans (F.isNaN_iff a)

theorem FloatFmt.ieee_Inf_iff_mag : F.ieee.Inf a ↔ F.magPattern a = F.infPattern :=
  ieee_Inf_iff.trans (F.isInf_iff a)

theorem FloatFmt.ieee_Zero_iff_mag : F.ieee.Zero a ↔ F.magPattern a = 0 :=
  ieee_Zero_iff.trans (F.isZero_iff a)

theorem FloatFmt.ieee_Finite_iff_mag : F.ieee.Finite a ↔ F.magPattern a < F.infPattern :=
  ieee_Finite_iff.trans (F.isFinite_iff a)

section
variable {K : Ieee}

/-- Every pattern is a NaN, an infinity or finite. -/
theorem ieee_classes (K : Ieee) (a : BitVec w) : K.NaN a ∨ K.Inf a ∨ K.Finite a := by
  by_cases he : K.exp a = 2 ^ K.expBits - 1
  · by_cases hf : K.frac a = 0
    · exact .inr (.inl ⟨he, hf⟩)
    · exact .inl ⟨he, hf⟩
  · exact .inr (.inr he)

theorem not_NaN_of_Inf (h : K.Inf a) : ¬ K.NaN a := fun hn => hn.2 h.2

theorem not_NaN_of_Finite (h : K.Finite a) : ¬ K.NaN a := fun hn => h hn.1

theorem not_Inf_of_Finite (h : K.Finite a) : ¬ K.Inf a := fun hi => h hi.1

/-- A rounded real number is no NaN. -/
theorem not_NaN_of_roundsTo {x : ℝ} (h : K.RoundsTo x a) : ¬ K.NaN a := by
  obtain ⟨-, hover, hbelow⟩ := h
  rcases le_or_gt K.threshold |x| with hx | hx
  · exact not_NaN_of_Inf (hover hx)
  · exact not_NaN_of_Finite (hbelow hx).1

end

/-! ## Formats -/

/-- A format of the model is an IEEE 754 format: its unit and its overflow threshold are those of the real values
(R110, R111). -/
structure FloatFmt.IsIeee (F : FloatFmt w) : Prop extends F.Fits, F.Sound where
  unitExp_succ : F.unitExp + 1 = F.ieee.bias + F.fracBits
  overflow_eq : (F.overflow : ℝ) = F.ieee.threshold * 2 ^ F.unitExp

theorem fmtS_isIeee : fmtS.IsIeee where
  toFits := fmtS_fits
  toSound := fmtS_sound
  unitExp_succ := rfl
  overflow_eq := by
    norm_num [fmtS, FloatFmt.ieee, Ieee.threshold, Ieee.bias]

theorem fmtD_isIeee : fmtD.IsIeee where
  toFits := fmtD_fits
  toSound := fmtD_sound
  unitExp_succ := rfl
  overflow_eq := by
    have hle : 2 ^ 970 ≤ 2 ^ 1024 := pow_le_pow_right₀ one_le_two (by norm_num)
    have hthreshold : fmtD.ieee.threshold = 2 ^ 1024 - 2 ^ 970 := rfl
    rw [hthreshold, fmtD, Nat.cast_mul, Nat.cast_sub hle]
    simp only [Nat.cast_pow, Nat.cast_ofNat]

theorem FloatFmt.IsIeee.not_Zero_of_Inf (hF : F.IsIeee) (h : F.ieee.Inf a) : ¬ F.ieee.Zero a := by
  rw [ieee_Inf_iff_mag] at h
  rw [ieee_Zero_iff_mag, h]
  exact hF.inf_pos.ne'

theorem FloatFmt.IsIeee.finite_of_Zero (hF : F.IsIeee) (h : F.ieee.Zero a) : F.ieee.Finite a := by
  rw [ieee_Zero_iff_mag] at h
  rw [ieee_Finite_iff_mag, h]
  exact hF.inf_pos

/-- The model's infinities and zeros are those of R116. -/
theorem FloatFmt.IsIeee.infOf_inf (hF : F.IsIeee) (neg : Bool) : F.ieee.InfOf neg (F.inf neg) :=
  ⟨ieee_Inf_iff_mag.mpr (magPattern_pack hF.toFits neg hF.inf_lt), signOf_pack hF.toFits neg hF.inf_lt⟩

theorem FloatFmt.IsIeee.zeroOf_zero (hF : F.IsIeee) (neg : Bool) : F.ieee.ZeroOf neg (F.zero neg) :=
  have hpos := Nat.two_pow_pos (F.expBits + F.fracBits)
  ⟨ieee_Zero_iff_mag.mpr (magPattern_pack hF.toFits neg hpos), signOf_pack hF.toFits neg hpos⟩

/-! ## Real values -/

/-- The scale of a format's exponents: its least normal number is `2^fracBits` units. -/
theorem FloatFmt.IsIeee.least_normal (hF : F.IsIeee) :
    (2 : ℝ) ^ (1 - (F.ieee.bias : ℤ)) = 2 ^ F.fracBits / 2 ^ F.unitExp := by
  have h := hF.unitExp_succ
  rw [eq_div_iff (by positivity), ← zpow_natCast, ← zpow_natCast, ← zpow_add₀ two_ne_zero]
  congr 1
  omega

/-- `|val(a)|` is the magnitude of `a` in units (R110). -/
theorem FloatFmt.IsIeee.val_eq (hF : F.IsIeee) (a : BitVec w) :
    F.ieee.val a = (if a.msb then -1 else 1) * (F.absUnits a / 2 ^ F.unitExp) := by
  have hnormal := hF.least_normal
  have hfrac : F.ieee.fracBits = F.fracBits := rfl
  have hB : (2 : ℝ) ^ F.fracBits ≠ 0 := by positivity
  rw [Ieee.val, F.ieee_exp, F.ieee_frac, hfrac, absUnits, units, ← expField_eq, ← fracField_eq]
  congr 1
  by_cases he : F.expField a = 0
  · simp only [he, if_true]
    rw [hnormal]
    field_simp
  · obtain ⟨e, he⟩ := Nat.exists_eq_succ_of_ne_zero he
    have hscale : (2 : ℝ) ^ ((F.expField a : ℤ) - F.ieee.bias) = 2 ^ e * (2 ^ F.fracBits / 2 ^ F.unitExp) := by
      rw [← hnormal, ← zpow_natCast, ← zpow_add₀ two_ne_zero, he]
      congr 1
      push_cast
      ring
    rw [hscale, he, if_neg e.succ_ne_zero, if_neg e.succ_ne_zero, Nat.succ_sub_one]
    push_cast
    field_simp

theorem FloatFmt.IsIeee.abs_val (hF : F.IsIeee) (a : BitVec w) :
    |F.ieee.val a| = F.absUnits a / 2 ^ F.unitExp := by
  have hpos : (0 : ℝ) ≤ F.absUnits a / 2 ^ F.unitExp := by positivity
  rw [hF.val_eq]
  cases a.msb <;> simp [abs_of_nonneg hpos]

/-- `val(a)` in units (R110). -/
theorem FloatFmt.IsIeee.val_eq_valUnits (hF : F.IsIeee) (a : BitVec w) :
    F.ieee.val a = F.valUnits a / 2 ^ F.unitExp := by
  rw [hF.val_eq, valUnits, signOf]
  cases a.msb <;> simp [neg_div]

theorem FloatFmt.absUnits_pos (h : ¬ F.ieee.Zero a) : 0 < F.absUnits a := by
  have hmag : F.magPattern a ≠ 0 := fun h0 => h (ieee_Zero_iff_mag.mpr h0)
  have := F.units_strictMono (Nat.pos_of_ne_zero hmag)
  rwa [F.units_zero] at this

theorem FloatFmt.absUnits_of_Zero (h : F.ieee.Zero a) : F.absUnits a = 0 := by
  rw [absUnits, ieee_Zero_iff_mag.mp h, F.units_zero]

/-- The value of a nonzero pattern has its sign. -/
theorem FloatFmt.IsIeee.val_sign (hF : F.IsIeee) (h : ¬ F.ieee.Zero a) :
    (a.msb = true ∧ F.ieee.val a < 0) ∨ (a.msb = false ∧ 0 < F.ieee.val a) := by
  have hpos : (0 : ℝ) < F.absUnits a / 2 ^ F.unitExp := by
    have := absUnits_pos h
    positivity
  rw [hF.val_eq]
  cases a.msb with
  | true => exact .inl ⟨rfl, by simpa using hpos⟩
  | false => exact .inr ⟨rfl, by simpa using hpos⟩

/-! ## Rounding (R111) -/

/-- The real value with the sign of `x` and the magnitude pattern `m`. -/
noncomputable def FloatFmt.signedVal (F : FloatFmt w) (x : ℝ) (m : ℕ) : ℝ :=
  (if x < 0 then -1 else 1) * (F.units m / 2 ^ F.unitExp)

theorem FloatFmt.signedVal_zero (F : FloatFmt w) (x : ℝ) : F.signedVal x 0 = 0 := by
  simp [signedVal]

/-- A pattern with the sign of `x` has such a value. -/
theorem FloatFmt.IsIeee.val_eq_signedVal (hF : F.IsIeee) {x : ℝ} (hs : a.msb = true ↔ x < 0) :
    F.ieee.val a = F.signedVal x (F.magPattern a) := by
  rw [hF.val_eq, signedVal, absUnits, if_congr hs rfl rfl]

/-- With equal signs, values are as far apart as magnitudes. -/
theorem FloatFmt.abs_signedVal_sub (F : FloatFmt w) (x : ℝ) (m : ℕ) :
    |F.signedVal x m - x| = |(F.units m : ℝ) - |x| * 2 ^ F.unitExp| / 2 ^ F.unitExp := by
  have hpos : (0 : ℝ) < 2 ^ F.unitExp := by positivity
  have hmag : |(F.units m : ℝ) - |x| * 2 ^ F.unitExp| / 2 ^ F.unitExp = abs (F.units m / 2 ^ F.unitExp - |x|) := by
    rw [← abs_of_pos hpos, ← abs_div, abs_of_pos hpos, sub_div, mul_div_cancel_right₀ _ hpos.ne']
  rw [hmag, signedVal]
  split <;> rename_i hx
  · rw [abs_of_neg hx, abs_sub_comm]
    ring_nf
  · rw [abs_of_nonneg (not_lt.mp hx), one_mul]

/-- Any pattern is as far from `x` as some value with the sign of `x`, namely itself, or farther, if it has the other
sign: then zero is nearer. -/
theorem FloatFmt.IsIeee.exists_signedVal_nearer (hF : F.IsIeee) (x : ℝ) (q : BitVec w) :
    ∃ m, |F.signedVal x m - x| ≤ |F.ieee.val q - x| ∧
      (|F.ieee.val q - x| = |F.signedVal x m - x| → F.ieee.val q = F.signedVal x m) := by
  by_cases hs : q.msb = true ↔ x < 0
  · exact ⟨_, (congrArg (|· - x|) (hF.val_eq_signedVal hs)).ge, fun _ => hF.val_eq_signedVal hs⟩
  · have hother : |F.ieee.val q - x| = |F.ieee.val q| + |x| := by
      have hmag : (0 : ℝ) ≤ F.absUnits q / 2 ^ F.unitExp := by positivity
      rw [sub_eq_add_neg, ← abs_neg x, abs_add_eq_add_abs_iff, hF.val_eq]
      cases hq : q.msb with
      | true =>
        have hx : 0 ≤ x := by simpa [hq] using hs
        exact .inr ⟨by simpa using hmag, neg_nonpos.mpr hx⟩
      | false =>
        have hx : x < 0 := by simpa [hq] using hs
        exact .inl ⟨by simpa using hmag, (neg_pos.mpr hx).le⟩
    refine ⟨0, ?_, ?_⟩ <;> rw [hother, F.signedVal_zero, zero_sub, abs_neg]
    · exact le_add_of_nonneg_left (abs_nonneg _)
    · exact fun h => abs_eq_zero.mp (add_eq_right.mp h)

/-- The last bit of a pattern is that of its magnitude. -/
theorem FloatFmt.Fits.getLsbD_zero_of_even (hF : F.Fits) (h : F.magPattern a % 2 = 0) : a.getLsbD 0 = false := by
  have hdvd : 2 ∣ 2 ^ (F.expBits + F.fracBits) := dvd_pow_self 2 (by have := hF.exp_pos; omega)
  rw [magPattern, Nat.mod_mod_of_dvd _ hdvd] at h
  rw [BitVec.getLsbD, Nat.testBit_zero, h]
  rfl

/-- `round_F` of an exact magnitude is the real number with that magnitude and the given sign, rounded as R111
says. -/
theorem FloatFmt.IsIeee.roundsTo_round (hF : F.IsIeee) {x : ℝ} {neg : Bool} {r : Exact} (hneg : neg = true ↔ x < 0)
    (hr : r.proper) (hx : r.toReal = |x| * 2 ^ F.unitExp) : F.ieee.RoundsTo x (F.round neg r) := by
  have hpos : (0 : ℝ) < 2 ^ F.unitExp := by positivity
  obtain ⟨hsign, hmag, -⟩ := F.round_spec hF.toFits hF.toSound neg hr
  have hmsb : (F.round neg r).msb = true ↔ x < 0 := (Bool.eq_iff_iff.mp hsign).trans hneg
  refine ⟨hmsb, fun h => ?_, fun h => ?_⟩
  · rw [ieee_Inf_iff_mag, hmag]
    refine F.roundPattern_overflow hr ?_
    rw [hF.overflow_eq, hx]
    exact mul_le_mul_of_nonneg_right h hpos.le
  · have hlt : r.toReal < F.overflow := by
      rw [hF.overflow_eq, hx]
      exact mul_lt_mul_of_pos_right h hpos
    obtain ⟨hfin, hnearest, heven⟩ := F.roundPattern_nearest hF.toSound hr hlt
    have hval : F.ieee.val (F.round neg r) = F.signedVal x (F.roundPattern r) := hmag ▸ hF.val_eq_signedVal hmsb
    have hnearest' (m : ℕ) : |F.signedVal x (F.roundPattern r) - x| ≤ |F.signedVal x m - x| := by
      rw [F.abs_signedVal_sub, F.abs_signedVal_sub, ← hx]
      exact div_le_div_of_nonneg_right (hnearest m) hpos.le
    refine ⟨?_, fun q _ => ?_, fun q _ hne htie => ?_⟩
    · rwa [ieee_Finite_iff_mag, hmag]
    · obtain ⟨m, hm, -⟩ := hF.exists_signedVal_nearer x q
      exact hval ▸ (hnearest' m).trans hm
    · obtain ⟨m, hm, hm_eq⟩ := hF.exists_signedVal_nearer x q
      rw [hval] at hne htie
      have hmtie : |F.signedVal x m - x| = |F.signedVal x (F.roundPattern r) - x| :=
        le_antisymm (hm.trans htie.le) (hnearest' m)
      have hne' : m ≠ F.roundPattern r := fun h => hne (h ▸ hm_eq (htie.trans hmtie.symm))
      refine hF.getLsbD_zero_of_even (hmag ▸ heven m hne' ?_)
      rw [F.abs_signedVal_sub, F.abs_signedVal_sub, ← hx] at hmtie
      exact (div_left_inj' hpos.ne').mp hmtie

end Sys2Proof.Machine
end

section
/-! PROOFS. The statements of 40_fp_arith.md on the operations: each answers infinities, zeros and the rounded exact
result where R116 says so, and NaNs where R114 and R115 say so and nowhere else. -/

namespace Sys2Proof.Machine

open Claims

variable {w : Nat} {F : FloatFmt w} {a b : BitVec w}

/-! ## The classes as the model's tests, with those they exclude -/

theorem FloatFmt.isNaN_eq_false (h : ¬ F.ieee.NaN a) : F.isNaN a = false :=
  Bool.eq_false_iff.mpr fun hb => h ((F.ieee_NaN_iff a).mpr hb)

theorem FloatFmt.isInf_eq_false (h : ¬ F.ieee.Inf a) : F.isInf a = false :=
  Bool.eq_false_iff.mpr fun hb => h (ieee_Inf_iff.mpr hb)

theorem FloatFmt.isZero_eq_false (h : ¬ F.ieee.Zero a) : F.isZero a = false :=
  Bool.eq_false_iff.mpr fun hb => h (ieee_Zero_iff.mpr hb)

/-! ## Addition and subtraction -/

/-- Past the NaN test of addition: infinities of two signs are invalid (R115). -/
theorem FloatFmt.addNumbers_of_invalid (op : FpOp) (l : List Word64) (ha : F.ieee.Inf a) (hb : F.ieee.Inf b)
    (hs : a.msb ≠ b.msb) : F.addNumbers op l a b = F.nan op l := by
  simp [addNumbers, signOf, ieee_Inf_iff.mp ha, ieee_Inf_iff.mp hb, hs]

/-- An infinite operand goes through, the first one if the second is not an infinity of the other sign. -/
theorem FloatFmt.addNumbers_of_Inf_left (op : FpOp) (l : List Word64) (ha : F.ieee.Inf a)
    (hb : F.ieee.Inf b → a.msb = b.msb) : F.addNumbers op l a b = a := by
  rw [ieee_Inf_iff] at ha hb
  by_cases hi : F.isInf b = true
  · simp [addNumbers, signOf, ha, hb hi]
  · simp [addNumbers, ha, hi]

theorem FloatFmt.addNumbers_of_Inf_right (op : FpOp) (l : List Word64) (ha : F.ieee.Finite a)
    (hb : F.ieee.Inf b) : F.addNumbers op l a b = b := by
  simp [addNumbers, isInf_eq_false (not_Inf_of_Finite ha), ieee_Inf_iff.mp hb]

theorem FloatFmt.addNumbers_of_Finite (op : FpOp) (l : List Word64) (ha : F.ieee.Finite a)
    (hb : F.ieee.Finite b) : F.addNumbers op l a b = F.addFinite a b := by
  simp [addNumbers, isInf_eq_false (not_Inf_of_Finite ha), isInf_eq_false (not_Inf_of_Finite hb)]

/-- A sum of values, in units. -/
theorem FloatFmt.IsIeee.val_add_val (hF : F.IsIeee) (a b : BitVec w) :
    F.ieee.val a + F.ieee.val b = ((F.valUnits a + F.valUnits b : ℤ) : ℝ) / 2 ^ F.unitExp := by
  rw [hF.val_eq_valUnits, hF.val_eq_valUnits, ← add_div, Int.cast_add]

theorem FloatFmt.IsIeee.val_add_val_eq_zero_iff (hF : F.IsIeee) :
    F.ieee.val a + F.ieee.val b = 0 ↔ F.valUnits a + F.valUnits b = 0 := by
  rw [hF.val_add_val, div_eq_zero_iff, or_iff_left (by positivity), Int.cast_eq_zero]

/-- A nonzero exact sum is rounded (R111). -/
theorem FloatFmt.IsIeee.roundsTo_addFinite (hF : F.IsIeee) (h : F.ieee.val a + F.ieee.val b ≠ 0) :
    F.ieee.RoundsTo (F.ieee.val a + F.ieee.val b) (F.addFinite a b) := by
  have hpos : (0 : ℝ) < 2 ^ F.unitExp := by positivity
  rw [addFinite, if_neg (mt hF.val_add_val_eq_zero_iff.mpr h)]
  refine hF.roundsTo_round ?_ one_pos ?_ <;> rw [hF.val_add_val]
  · rw [decide_eq_true_iff, div_lt_iff₀ hpos, zero_mul, Int.cast_lt_zero]
  · rw [abs_div, abs_of_pos hpos, div_mul_cancel₀ _ hpos.ne', Exact.toReal, Nat.cast_one, div_one, Nat.cast_natAbs,
      Int.cast_abs]

/-- Zeros add up to a zero with the sign they have in common, `+0` if none (R116). -/
theorem FloatFmt.addfinite_of_Zero (ha : F.ieee.Zero a) (hb : F.ieee.Zero b) :
    F.addFinite a b = F.zero (a.msb && b.msb) := by
  have hunits : F.valUnits a + F.valUnits b = 0 := by
    simp [valUnits, absUnits_of_Zero ha, absUnits_of_Zero hb]
  simp [addFinite, hunits, ieee_Zero_iff.mp ha, ieee_Zero_iff.mp hb, signOf]

/-- Exact cancellation gives `+0` (R116). -/
theorem FloatFmt.IsIeee.addFinite_of_cancel (hF : F.IsIeee) (ha : ¬ F.ieee.Zero a)
    (h : F.ieee.val a + F.ieee.val b = 0) : F.addFinite a b = F.zero false := by
  simp [addFinite, hF.val_add_val_eq_zero_iff.mp h, isZero_eq_false ha]

/-- Past its NaN test, addition follows R116. -/
theorem FloatFmt.IsIeee.addRule_addNumbers (hF : F.IsIeee) (op : FpOp) (l : List Word64) :
    AddRule F.ieee (F.addNumbers op l) := by
  intro a b _ _
  refine ⟨addNumbers_of_Inf_left op l, addNumbers_of_Inf_right op l, fun ha hb h => ?_, fun ha hb => ?_,
    fun ha hb hz h => ?_⟩
  · exact addNumbers_of_Finite op l ha hb ▸ hF.roundsTo_addFinite h
  · rw [addNumbers_of_Finite op l (hF.finite_of_Zero ha) (hF.finite_of_Zero hb), addfinite_of_Zero ha hb]
    exact hF.zeroOf_zero _
  · rw [addNumbers_of_Finite op l ha hb, hF.addFinite_of_cancel hz h]
    exact hF.zeroOf_zero _

/-- On numbers `fadd` and `fsub` are `addNumbers`. -/
theorem FloatFmt.fadd_of_not_NaN (op : FpOp) (ha : ¬ F.ieee.NaN a) (hb : ¬ F.ieee.NaN b) :
    F.fadd op a b = F.addNumbers op (operands2 a b) a b := by
  simp [fadd, isNaN_eq_false ha, isNaN_eq_false hb]

theorem FloatFmt.fsub_of_not_NaN (op : FpOp) (ha : ¬ F.ieee.NaN a) (hb : ¬ F.ieee.NaN b) :
    F.fsub op a b = F.addNumbers op (operands2 a b) a (F.fneg b) := by
  simp [fsub, fneg, isNaN_eq_false ha, isNaN_eq_false hb]

theorem FloatFmt.IsIeee.addRule_fadd (hF : F.IsIeee) (op : FpOp) : AddRule F.ieee (F.fadd op) := by
  intro a b ha hb
  rw [fadd_of_not_NaN op ha hb]
  exact hF.addRule_addNumbers op _ a b ha hb

/-- Negation flips the sign and keeps the magnitude (R117), so it negates the value and keeps every class. -/
theorem FloatFmt.IsIeee.msb_fneg (hF : F.IsIeee) (b : BitVec w) : (F.fneg b).msb = !b.msb :=
  (signBit_xor hF.toFits b).1

theorem FloatFmt.IsIeee.magPattern_fneg (hF : F.IsIeee) (b : BitVec w) : F.magPattern (F.fneg b) = F.magPattern b :=
  (signBit_xor hF.toFits b).2

theorem FloatFmt.IsIeee.val_fneg (hF : F.IsIeee) (b : BitVec w) : F.ieee.val (F.fneg b) = -F.ieee.val b := by
  rw [hF.val_eq, hF.val_eq, hF.msb_fneg, absUnits, absUnits, hF.magPattern_fneg]
  cases b.msb <;> simp

theorem FloatFmt.IsIeee.NaN_fneg_iff (hF : F.IsIeee) : F.ieee.NaN (F.fneg b) ↔ F.ieee.NaN b := by
  rw [ieee_NaN_iff_mag, ieee_NaN_iff_mag, hF.magPattern_fneg]

theorem FloatFmt.IsIeee.Inf_fneg_iff (hF : F.IsIeee) : F.ieee.Inf (F.fneg b) ↔ F.ieee.Inf b := by
  rw [ieee_Inf_iff_mag, ieee_Inf_iff_mag, hF.magPattern_fneg]

theorem FloatFmt.IsIeee.Zero_fneg_iff (hF : F.IsIeee) : F.ieee.Zero (F.fneg b) ↔ F.ieee.Zero b := by
  rw [ieee_Zero_iff_mag, ieee_Zero_iff_mag, hF.magPattern_fneg]

theorem FloatFmt.IsIeee.Finite_fneg_iff (hF : F.IsIeee) : F.ieee.Finite (F.fneg b) ↔ F.ieee.Finite b := by
  rw [ieee_Finite_iff_mag, ieee_Finite_iff_mag, hF.magPattern_fneg]

/-- Subtraction is addition of the negated operand. -/
theorem FloatFmt.IsIeee.subRule_fsub (hF : F.IsIeee) (op : FpOp) : SubRule F.ieee (F.fsub op) := by
  intro a b ha hb
  have hadd := hF.addRule_addNumbers op (operands2 a b) a (F.fneg b) ha (mt hF.NaN_fneg_iff.mp hb)
  rw [← fsub_of_not_NaN op ha hb] at hadd
  simp only [hF.Inf_fneg_iff, hF.Zero_fneg_iff, hF.Finite_fneg_iff, hF.msb_fneg, hF.val_fneg,
    ← sub_eq_add_neg] at hadd
  obtain ⟨hleft, hright, hround, hzeros, hcancel⟩ := hadd
  refine ⟨fun hia hs => hleft hia fun hib => Bool.eq_not.mpr (hs hib), fun hfa hib => ?_, hround, hzeros, hcancel⟩
  rw [hright hfa hib]
  exact ⟨hF.Inf_fneg_iff.mpr hib, hF.msb_fneg b⟩

/-- Settles O25: past the NaN test both are `addNumbers`, which rounds the exact sum in units. -/
theorem addAndSubRoundTheExactResult : Obligations.AddAndSubRoundTheExactResult :=
  ⟨fmtS_isIeee.addRule_fadd .addS, fmtD_isIeee.addRule_fadd .addD,
    fmtS_isIeee.subRule_fsub .subS, fmtD_isIeee.subRule_fsub .subD⟩

/-! ## Multiplication and division -/

/-- A product of nonzero values has the XOR of their signs. -/
theorem FloatFmt.IsIeee.xor_msb_iff (hF : F.IsIeee) (ha : ¬ F.ieee.Zero a) (hb : ¬ F.ieee.Zero b) :
    (a.msb ^^ b.msb) = true ↔ F.ieee.val a * F.ieee.val b < 0 := by
  rcases hF.val_sign ha with ⟨hsa, hva⟩ | ⟨hsa, hva⟩ <;> rcases hF.val_sign hb with ⟨hsb, hvb⟩ | ⟨hsb, hvb⟩ <;>
    simp [mul_neg_iff, hsa, hsb, hva, hvb, hva.not_gt, hvb.not_gt]

theorem FloatFmt.IsIeee.fmul_of_Inf (hF : F.IsIeee) (op : FpOp) (ha : ¬ F.ieee.NaN a) (hb : ¬ F.ieee.NaN b)
    (h : (F.ieee.Inf a ∧ ¬ F.ieee.Zero b) ∨ (¬ F.ieee.Zero a ∧ F.ieee.Inf b)) :
    F.fmul op a b = F.inf (a.msb ^^ b.msb) := by
  rcases h with ⟨hi, hz⟩ | ⟨hz, hi⟩ <;>
    simp [fmul, signOf, isNaN_eq_false ha, isNaN_eq_false hb, ieee_Inf_iff.mp hi, isZero_eq_false hz,
      isZero_eq_false (hF.not_Zero_of_Inf hi)]

theorem FloatFmt.fmul_of_Finite (op : FpOp) (ha : F.ieee.Finite a) (hb : F.ieee.Finite b) :
    F.fmul op a b =
      if F.isZero a || F.isZero b then F.zero (a.msb ^^ b.msb)
      else F.round (a.msb ^^ b.msb) (.ratio (F.absUnits a * F.absUnits b) (2 ^ F.unitExp)) := by
  simp [fmul, signOf, isNaN_eq_false (not_NaN_of_Finite ha), isNaN_eq_false (not_NaN_of_Finite hb),
    isInf_eq_false (not_Inf_of_Finite ha), isInf_eq_false (not_Inf_of_Finite hb)]

theorem FloatFmt.IsIeee.mulRule_fmul (hF : F.IsIeee) (op : FpOp) : MulRule F.ieee (F.fmul op) := by
  intro a b ha hb
  refine ⟨fun hi hz => ?_, fun hz hi => ?_, fun hfa hfb hz => ?_, fun hfa hfb hza hzb => ?_⟩
  · exact hF.fmul_of_Inf op ha hb (.inl ⟨hi, hz⟩) ▸ hF.infOf_inf _
  · exact hF.fmul_of_Inf op ha hb (.inr ⟨hz, hi⟩) ▸ hF.infOf_inf _
  · rw [ieee_Zero_iff, ieee_Zero_iff, ← Bool.or_eq_true] at hz
    rw [fmul_of_Finite op hfa hfb, if_pos hz]
    exact hF.zeroOf_zero _
  · rw [fmul_of_Finite op hfa hfb, if_neg (by simp [isZero_eq_false hza, isZero_eq_false hzb])]
    refine hF.roundsTo_round (hF.xor_msb_iff hza hzb) (Nat.two_pow_pos _) ?_
    rw [Exact.toReal, abs_mul, hF.abs_val, hF.abs_val]
    push_cast
    field_simp

/-- The quotient of an infinity, or of a nonzero number by zero (R116). -/
theorem FloatFmt.IsIeee.fdiv_eq_inf (hF : F.IsIeee) (op : FpOp) (hb : F.ieee.Finite b)
    (h : F.ieee.Inf a ∨ (F.ieee.Finite a ∧ ¬ F.ieee.Zero a ∧ F.ieee.Zero b)) :
    F.fdiv op a b = F.inf (a.msb ^^ b.msb) := by
  rcases h with hi | ⟨ha, hza, hzb⟩
  · simp [fdiv, signOf, isNaN_eq_false (not_NaN_of_Inf hi), isNaN_eq_false (not_NaN_of_Finite hb),
      isInf_eq_false (not_Inf_of_Finite hb), ieee_Inf_iff.mp hi, isZero_eq_false (hF.not_Zero_of_Inf hi)]
  · simp [fdiv, signOf, isNaN_eq_false (not_NaN_of_Finite ha), isNaN_eq_false (not_NaN_of_Finite hb),
      isInf_eq_false (not_Inf_of_Finite ha), isInf_eq_false (not_Inf_of_Finite hb), isZero_eq_false hza,
      ieee_Zero_iff.mp hzb]

/-- The quotient of a number by an infinity, or of zero by a nonzero number (R116). -/
theorem FloatFmt.IsIeee.fdiv_eq_zero (hF : F.IsIeee) (op : FpOp) (ha : F.ieee.Finite a)
    (h : F.ieee.Inf b ∨ (F.ieee.Zero a ∧ F.ieee.Finite b ∧ ¬ F.ieee.Zero b)) :
    F.fdiv op a b = F.zero (a.msb ^^ b.msb) := by
  rcases h with hi | ⟨hza, hb, hzb⟩
  · simp [fdiv, signOf, isNaN_eq_false (not_NaN_of_Finite ha), isNaN_eq_false (not_NaN_of_Inf hi),
      isInf_eq_false (not_Inf_of_Finite ha), ieee_Inf_iff.mp hi, isZero_eq_false (hF.not_Zero_of_Inf hi)]
  · simp [fdiv, signOf, isNaN_eq_false (not_NaN_of_Finite ha), isNaN_eq_false (not_NaN_of_Finite hb),
      isInf_eq_false (not_Inf_of_Finite ha), isInf_eq_false (not_Inf_of_Finite hb), isZero_eq_false hzb,
      ieee_Zero_iff.mp hza]

theorem FloatFmt.fdiv_of_Finite (op : FpOp) (ha : F.ieee.Finite a) (hb : F.ieee.Finite b)
    (hza : ¬ F.ieee.Zero a) (hzb : ¬ F.ieee.Zero b) :
    F.fdiv op a b = F.round (a.msb ^^ b.msb) (.ratio (F.absUnits a * 2 ^ F.unitExp) (F.absUnits b)) := by
  simp [fdiv, signOf, isNaN_eq_false (not_NaN_of_Finite ha), isNaN_eq_false (not_NaN_of_Finite hb),
    isInf_eq_false (not_Inf_of_Finite ha), isInf_eq_false (not_Inf_of_Finite hb), isZero_eq_false hza,
    isZero_eq_false hzb]

theorem FloatFmt.IsIeee.divRule_fdiv (hF : F.IsIeee) (op : FpOp) : DivRule F.ieee (F.fdiv op) := by
  intro a b _ _
  refine ⟨fun hi hb => ?_, fun ha hi => ?_, fun ha hza hzb => ?_, fun hza hb hzb => ?_, fun ha hb hza hzb => ?_⟩
  · exact hF.fdiv_eq_inf op hb (.inl hi) ▸ hF.infOf_inf _
  · exact hF.fdiv_eq_zero op ha (.inl hi) ▸ hF.zeroOf_zero _
  · exact hF.fdiv_eq_inf op (hF.finite_of_Zero hzb) (.inr ⟨ha, hza, hzb⟩) ▸ hF.infOf_inf _
  · exact hF.fdiv_eq_zero op (hF.finite_of_Zero hza) (.inr ⟨hza, hb, hzb⟩) ▸ hF.zeroOf_zero _
  · rw [fdiv_of_Finite op ha hb hza hzb]
    have hsign := (hF.xor_msb_iff hza hzb).trans (mul_neg_iff.trans div_neg_iff.symm)
    refine hF.roundsTo_round hsign (absUnits_pos hzb) ?_
    have hpos : (0 : ℝ) < F.absUnits b := Nat.cast_pos.mpr (absUnits_pos hzb)
    rw [Exact.toReal, abs_div, hF.abs_val, hF.abs_val]
    push_cast
    field_simp

/-- Settles O26: the product and the quotient of magnitudes in units are those of the real values. -/
theorem mulAndDivRoundTheExactResult : Obligations.MulAndDivRoundTheExactResult :=
  ⟨fmtS_isIeee.mulRule_fmul .mulS, fmtD_isIeee.mulRule_fmul .mulD,
    fmtS_isIeee.divRule_fdiv .divS, fmtD_isIeee.divRule_fdiv .divD⟩

/-! ## Square root -/

theorem FloatFmt.fsqrt_of_Zero (op : FpOp) (hn : ¬ F.ieee.NaN a) (hz : F.ieee.Zero a) : F.fsqrt op a = a := by
  simp [fsqrt, isNaN_eq_false hn, ieee_Zero_iff.mp hz]

theorem FloatFmt.IsIeee.fsqrt_of_Inf (hF : F.IsIeee) (op : FpOp) (hi : F.ieee.Inf a) (hs : a.msb = false) :
    F.fsqrt op a = a := by
  simp [fsqrt, signOf, hs, isNaN_eq_false (not_NaN_of_Inf hi), isZero_eq_false (hF.not_Zero_of_Inf hi),
    ieee_Inf_iff.mp hi]

theorem FloatFmt.fsqrt_of_Finite (op : FpOp) (ha : F.ieee.Finite a) (hz : ¬ F.ieee.Zero a) (hs : a.msb = false) :
    F.fsqrt op a = F.round false (.root (F.absUnits a * 2 ^ F.unitExp)) := by
  simp [fsqrt, signOf, hs, isNaN_eq_false (not_NaN_of_Finite ha), isZero_eq_false hz,
    isInf_eq_false (not_Inf_of_Finite ha)]

/-- The root of `u * 2^unitExp` is, in units, the real root of `u` units. -/
theorem FloatFmt.IsIeee.sqrtRule_fsqrt (hF : F.IsIeee) (op : FpOp) : SqrtRule F.ieee (F.fsqrt op) := by
  intro a hn
  refine ⟨fsqrt_of_Zero op hn, hF.fsqrt_of_Inf op, fun ha hz hs => ?_⟩
  rw [fsqrt_of_Finite op ha hz hs]
  have hval : F.ieee.val a = F.absUnits a / 2 ^ F.unitExp := by rw [hF.val_eq, hs]; simp
  have hunits : ((F.absUnits a * 2 ^ F.unitExp : ℕ) : ℝ) = F.ieee.val a * (2 ^ F.unitExp) ^ 2 := by
    rw [hval]
    push_cast
    field_simp
  have hpos : 0 ≤ F.ieee.val a := by rw [hval]; positivity
  refine hF.roundsTo_round (by simp) trivial ?_
  rw [Exact.toReal, hunits, Real.sqrt_mul hpos, Real.sqrt_sq (by positivity), abs_of_nonneg (Real.sqrt_nonneg _)]

/-- Settles O27: exact comparison with a root is comparison of squares, and the root is that of the real value. -/
theorem sqrtRoundsTheExactResult : Obligations.SqrtRoundsTheExactResult :=
  ⟨fmtS_isIeee.sqrtRule_fsqrt .sqrtS, fmtD_isIeee.sqrtRule_fsqrt .sqrtD⟩

/-! ## NaNs (R114, R115) -/

theorem FloatFmt.isNaN_or_isNaN (h : F.ieee.NaN a ∨ F.ieee.NaN b) : (F.isNaN a || F.isNaN b) = true := by
  rwa [Bool.or_eq_true, ← F.ieee_NaN_iff, ← F.ieee_NaN_iff]

/-- Each binary operation tests its operands for NaNs first. -/
theorem FloatFmt.fadd_of_NaN (op : FpOp) (h : F.ieee.NaN a ∨ F.ieee.NaN b) :
    F.fadd op a b = F.nan op (operands2 a b) := if_pos (isNaN_or_isNaN h)

theorem FloatFmt.fsub_of_NaN (op : FpOp) (h : F.ieee.NaN a ∨ F.ieee.NaN b) :
    F.fsub op a b = F.nan op (operands2 a b) := if_pos (isNaN_or_isNaN h)

theorem FloatFmt.fmul_of_NaN (op : FpOp) (h : F.ieee.NaN a ∨ F.ieee.NaN b) :
    F.fmul op a b = F.nan op (operands2 a b) := if_pos (isNaN_or_isNaN h)

theorem FloatFmt.fdiv_of_NaN (op : FpOp) (h : F.ieee.NaN a ∨ F.ieee.NaN b) :
    F.fdiv op a b = F.nan op (operands2 a b) := if_pos (isNaN_or_isNaN h)

theorem FloatFmt.IsIeee.not_NaN_zero (hF : F.IsIeee) (neg : Bool) : ¬ F.ieee.NaN (F.zero neg) :=
  not_NaN_of_Finite (hF.finite_of_Zero (hF.zeroOf_zero neg).1)

theorem FloatFmt.IsIeee.not_NaN_addFinite (hF : F.IsIeee) : ¬ F.ieee.NaN (F.addFinite a b) := by
  by_cases h : F.ieee.val a + F.ieee.val b = 0
  · rw [addFinite, if_pos (hF.val_add_val_eq_zero_iff.mp h)]
    split <;> exact hF.not_NaN_zero _
  · exact not_NaN_of_roundsTo (hF.roundsTo_addFinite h)

/-- Past its NaN test, addition answers no NaN but for infinities of two signs. -/
theorem FloatFmt.IsIeee.not_NaN_addNumbers (hF : F.IsIeee) (op : FpOp) (l : List Word64) (ha : ¬ F.ieee.NaN a)
    (hb : ¬ F.ieee.NaN b) (hv : ¬ (F.ieee.Inf a ∧ F.ieee.Inf b ∧ a.msb ≠ b.msb)) :
    ¬ F.ieee.NaN (F.addNumbers op l a b) := by
  rcases (ieee_classes F.ieee a).resolve_left ha with hia | hfa
  · rwa [addNumbers_of_Inf_left op l hia fun hib => by_contra fun hs => hv ⟨hia, hib, hs⟩]
  rcases (ieee_classes F.ieee b).resolve_left hb with hib | hfb
  · rwa [addNumbers_of_Inf_right op l hfa hib]
  · rw [addNumbers_of_Finite op l hfa hfb]
    exact hF.not_NaN_addFinite

theorem FloatFmt.IsIeee.nanRule_fadd (hF : F.IsIeee) (op : FpOp) :
    NaNRule2 F.ieee F.nan (fun a b => F.ieee.Inf a ∧ F.ieee.Inf b ∧ a.msb ≠ b.msb) op (F.fadd op) := by
  refine fun a b => ⟨fun h => ?_, fun ha hb hv => ?_⟩
  · rcases or_assoc.mpr h with hn | ⟨hia, hib, hs⟩
    · exact fadd_of_NaN op hn
    · rw [fadd_of_not_NaN op (not_NaN_of_Inf hia) (not_NaN_of_Inf hib)]
      exact addNumbers_of_invalid op _ hia hib hs
  · rw [fadd_of_not_NaN op ha hb]
    exact hF.not_NaN_addNumbers op _ ha hb hv

theorem FloatFmt.IsIeee.nanRule_fsub (hF : F.IsIeee) (op : FpOp) :
    NaNRule2 F.ieee F.nan (fun a b => F.ieee.Inf a ∧ F.ieee.Inf b ∧ a.msb = b.msb) op (F.fsub op) := by
  refine fun a b => ⟨fun h => ?_, fun ha hb hv => ?_⟩
  · rcases or_assoc.mpr h with hn | ⟨hia, hib, hs⟩
    · exact fsub_of_NaN op hn
    · rw [fsub_of_not_NaN op (not_NaN_of_Inf hia) (not_NaN_of_Inf hib)]
      exact addNumbers_of_invalid op _ hia (hF.Inf_fneg_iff.mpr hib) (by simp [hF.msb_fneg, hs])
  · rw [fsub_of_not_NaN op ha hb]
    refine hF.not_NaN_addNumbers op _ ha (mt hF.NaN_fneg_iff.mp hb) fun ⟨hia, hib, hs⟩ => ?_
    exact hv ⟨hia, hF.Inf_fneg_iff.mp hib, by simpa [hF.msb_fneg] using hs⟩

theorem FloatFmt.IsIeee.fmul_of_invalid (hF : F.IsIeee) (op : FpOp)
    (h : (F.ieee.Zero a ∧ F.ieee.Inf b) ∨ (F.ieee.Inf a ∧ F.ieee.Zero b)) :
    F.fmul op a b = F.nan op (operands2 a b) := by
  rcases h with ⟨hz, hi⟩ | ⟨hi, hz⟩ <;>
    simp [fmul, isNaN_eq_false (not_NaN_of_Inf hi), isNaN_eq_false (not_NaN_of_Finite (hF.finite_of_Zero hz)),
      ieee_Inf_iff.mp hi, ieee_Zero_iff.mp hz]

/-- By R116 a product is an infinity, a zero or a rounded real number, but for the invalid pairs. -/
theorem FloatFmt.IsIeee.nanRule_fmul (hF : F.IsIeee) (op : FpOp) :
    NaNRule2 F.ieee F.nan (fun a b => (F.ieee.Zero a ∧ F.ieee.Inf b) ∨ (F.ieee.Inf a ∧ F.ieee.Zero b)) op
      (F.fmul op) := by
  refine fun a b => ⟨fun h => ?_, fun ha hb hv => ?_⟩
  · rcases or_assoc.mpr h with hn | hv
    · exact fmul_of_NaN op hn
    · exact hF.fmul_of_invalid op hv
  · obtain ⟨hinf_left, hinf_right, hzero, hround⟩ := hF.mulRule_fmul op a b ha hb
    rcases (ieee_classes F.ieee a).resolve_left ha with hia | hfa
    · exact not_NaN_of_Inf (hinf_left hia fun hz => hv (.inr ⟨hia, hz⟩)).1
    rcases (ieee_classes F.ieee b).resolve_left hb with hib | hfb
    · exact not_NaN_of_Inf (hinf_right (fun hz => hv (.inl ⟨hz, hib⟩)) hib).1
    by_cases hz : F.ieee.Zero a ∨ F.ieee.Zero b
    · exact not_NaN_of_Finite (hF.finite_of_Zero (hzero hfa hfb hz).1)
    · exact not_NaN_of_roundsTo (hround hfa hfb (hz ∘ .inl) (hz ∘ .inr))

theorem FloatFmt.IsIeee.fdiv_of_invalid (hF : F.IsIeee) (op : FpOp)
    (h : (F.ieee.Zero a ∧ F.ieee.Zero b) ∨ (F.ieee.Inf a ∧ F.ieee.Inf b)) :
    F.fdiv op a b = F.nan op (operands2 a b) := by
  rcases h with ⟨hza, hzb⟩ | ⟨hia, hib⟩
  · simp [fdiv, isNaN_eq_false (not_NaN_of_Finite (hF.finite_of_Zero hza)),
      isNaN_eq_false (not_NaN_of_Finite (hF.finite_of_Zero hzb)), ieee_Zero_iff.mp hza, ieee_Zero_iff.mp hzb]
  · simp [fdiv, isNaN_eq_false (not_NaN_of_Inf hia), isNaN_eq_false (not_NaN_of_Inf hib), ieee_Inf_iff.mp hia,
      ieee_Inf_iff.mp hib]

/-- By R116 a quotient is an infinity, a zero or a rounded real number, but for the invalid pairs. -/
theorem FloatFmt.IsIeee.nanRule_fdiv (hF : F.IsIeee) (op : FpOp) :
    NaNRule2 F.ieee F.nan (fun a b => (F.ieee.Zero a ∧ F.ieee.Zero b) ∨ (F.ieee.Inf a ∧ F.ieee.Inf b)) op
      (F.fdiv op) := by
  refine fun a b => ⟨fun h => ?_, fun ha hb hv => ?_⟩
  · rcases or_assoc.mpr h with hn | hv
    · exact fdiv_of_NaN op hn
    · exact hF.fdiv_of_invalid op hv
  · obtain ⟨hinf_left, hinf_right, hby_zero, hzero, hround⟩ := hF.divRule_fdiv op a b ha hb
    rcases (ieee_classes F.ieee b).resolve_left hb with hib | hfb
    · have hfa := ((ieee_classes F.ieee a).resolve_left ha).resolve_left fun hia => hv (.inr ⟨hia, hib⟩)
      exact not_NaN_of_Finite (hF.finite_of_Zero (hinf_right hfa hib).1)
    rcases (ieee_classes F.ieee a).resolve_left ha with hia | hfa
    · exact not_NaN_of_Inf (hinf_left hia hfb).1
    by_cases hzb : F.ieee.Zero b
    · exact not_NaN_of_Inf (hby_zero hfa (fun hza => hv (.inl ⟨hza, hzb⟩)) hzb).1
    by_cases hza : F.ieee.Zero a
    · exact not_NaN_of_Finite (hF.finite_of_Zero (hzero hza hfb hzb).1)
    · exact not_NaN_of_roundsTo (hround hfa hfb hza hzb)

theorem FloatFmt.fsqrt_of_invalid (op : FpOp) (h : F.ieee.NaN a ∨ (a.msb = true ∧ ¬ F.ieee.Zero a)) :
    F.fsqrt op a = F.nan op (operands1 a) := by
  by_cases hn : F.ieee.NaN a
  · simp [fsqrt, (F.ieee_NaN_iff a).mp hn]
  · obtain ⟨hs, hz⟩ := h.resolve_left hn
    simp [fsqrt, signOf, hs, isNaN_eq_false hn, isZero_eq_false hz]

/-- By R116 a root is the operand itself or a rounded real number, but for negative operands. -/
theorem FloatFmt.IsIeee.nanRule_fsqrt (hF : F.IsIeee) (op : FpOp) : NaNRule1 F.ieee F.nan op (F.fsqrt op) := by
  refine fun a => ⟨fsqrt_of_invalid op, fun ha hv => ?_⟩
  obtain ⟨hzero, hinf, hround⟩ := hF.sqrtRule_fsqrt op a ha
  by_cases hz : F.ieee.Zero a
  · rwa [hzero hz]
  have hs : a.msb = false := Bool.eq_false_iff.mpr fun hs => hv ⟨hs, hz⟩
  rcases (ieee_classes F.ieee a).resolve_left ha with hia | hfa
  · rwa [hinf hia hs]
  · exact not_NaN_of_roundsTo (hround hfa hz hs)

/-- The rules of the five operations of one format. -/
theorem FloatFmt.IsIeee.nanRules (hF : F.IsIeee) (add sub mul div sqrt : FpOp) :
    NaNRules F.ieee F F.nan add sub mul div sqrt :=
  ⟨hF.nanRule_fadd add, hF.nanRule_fsub sub, hF.nanRule_fmul mul, hF.nanRule_fdiv div, hF.nanRule_fsqrt sqrt⟩

/-- Settles O24: an invalid pair is caught by its test, and what R116 gives for any other pair is no NaN. -/
theorem arithmeticNaNsAreExactlyTheListed : Obligations.ArithmeticNaNsAreExactlyTheListed :=
  ⟨fmtS_isIeee.nanRules .addS .subS .mulS .divS .sqrtS,
    fmtD_isIeee.nanRules .addD .subD .mulD .divD .sqrtD⟩

end Sys2Proof.Machine
end

section
/-! PROOFS. The statements of 41_fp_convert.md on instructions: the results of the conversions, in their places
(R150, R154, R160-R169). -/

namespace Sys2Proof.Machine

open Claims

/-! ## Conversions to floating point -/

/-- The 32-bit integer view is the signed value of the register that R32's table gives by the mode (R35, R150). -/
theorem State.readW_eq_reg32 (s : State) (i : RegIx) : s.readW i = (reg32 s.full s i).toInt :=
  congrArg BitVec.toInt (s.r32_eq_reg32 i)

/-- Settles O18: each is a single write of the operand converted, a 32-bit integer one being read by the mode. -/
theorem conversionsToSingleResults : Obligations.ConversionsToSingleResults := by
  intro s fd fs
  rw [← s.readW_eq_reg32]
  exact ⟨setsSingle_of_writeFS rfl, setsSingle_of_writeFS rfl, setsSingle_of_writeFS rfl⟩

/-- Settles O19: likewise with a double write. -/
theorem conversionsToDoubleResults : Obligations.ConversionsToDoubleResults := by
  intro s fd fs
  rw [← s.readFS_eq_single, ← s.readW_eq_reg32]
  exact ⟨setsDouble_of_writeFD rfl, setsDouble_of_writeFD rfl, setsDouble_of_writeFD rfl⟩

/-! ## Conversions to integers -/

/-- What the statements say of a conversion of `a` to an integer of `N` bits: where the truncated value fits it is
written, `Wrote`, and else one draw of `CVT_INVALID`; nothing else changes. -/
def SetsInteger {w : Nat} (i : Instr) (s : State) (F : FloatFmt w) (srcFmt : Fmt) (N : Nat) (a : BitVec w)
    (Wrote : State → BitVec N → Prop) : Prop :=
  ∃ t, exec i s = .next t ∧ RestKept s t ∧
    (∀ v, F.toInteger N a = some v → Wrote t v ∧ t.draws = s.draws) ∧
    (F.toInteger N a = none → Wrote t (Config.cvtInvalid s.draws srcFmt N a) ∧ t.draws = s.draws + 1)

section
variable {w N : Nat} {i : Instr} {s : State} {F : FloatFmt w} {srcFmt : Fmt} {a : BitVec w} {fd : RegIx}

/-- An instruction that writes the result of `integerOrDraw`, in the state with or without the draw. -/
theorem setsInteger_of_write {Wrote : State → BitVec N → Prop} {write : State → BitVec N → State}
    (hkeeps : ∀ s v, KeepsAllButSlots s (write s v))
    (hwrote : ∀ v, Wrote (write s v) v) (hwrote_draw : ∀ v, Wrote (write s.countDraw v) v)
    (h : exec i s = .next (write (s.integerOrDraw F srcFmt N a).2 (s.integerOrDraw F srcFmt N a).1)) :
    SetsInteger i s F srcFmt N a Wrote := by
  rcases s.integerOrDraw_cases F srcFmt N a with ⟨v, hv, hr⟩ | ⟨hv, hr⟩ <;> rw [hr] at h
  · obtain ⟨hfull, hfcr31, hparams, hinputs, hreplies, hdiags, hdraws⟩ := hkeeps s v
    refine ⟨_, h, ⟨hfull, hfcr31, hparams, hinputs, hreplies, hdiags⟩, fun u hu => ?_, fun hu => ?_⟩
    · cases hv.symm.trans hu
      exact ⟨hwrote v, hdraws⟩
    · nomatch hv.symm.trans hu
  · obtain ⟨hfull, hfcr31, hparams, hinputs, hreplies, hdiags, hdraws⟩ :=
      hkeeps s.countDraw (Config.cvtInvalid s.draws srcFmt N a)
    refine ⟨_, h, ⟨hfull, hfcr31, hparams, hinputs, hreplies, hdiags⟩, fun u hu => ?_, fun _ => ?_⟩
    · nomatch hv.symm.trans hu
    · exact ⟨hwrote_draw _, hdraws⟩

/-- A 32-bit write sets the register that R32's table gives by the mode, drawn or not (R150). -/
theorem setsInteger_of_w32
    (h : exec i s = .next ((s.integerOrDraw F srcFmt 32 a).2.w32 fd (s.integerOrDraw F srcFmt 32 a).1)) :
    SetsInteger i s F srcFmt 32 a (fun t v => Wrote32 s.full s t fd v) :=
  setsInteger_of_write (write := (·.w32 fd ·)) (fun s v => w32_keeps s fd v)
    (wrote32_writeHalf s.full s fd) (wrote32_writeHalf s.full s.countDraw fd) h

/-- A 64-bit write sets a whole slot, and no other. -/
theorem wrote64_w64 (s : State) (fd : RegIx) (v : Word64) : Wrote64 s (s.w64 fd v) fd v :=
  ⟨s.r64_w64_same fd v, fun j hj => (s.r64_w64 fd j v).trans (if_neg hj)⟩

theorem setsInteger_of_w64
    (h : exec i s = .next ((s.integerOrDraw F srcFmt 64 a).2.w64 fd (s.integerOrDraw F srcFmt 64 a).1)) :
    SetsInteger i s F srcFmt 64 a (fun t v => Wrote64 s t fd v) :=
  setsInteger_of_write (write := (·.w64 fd ·)) (fun s v => w64_keeps s fd v)
    (wrote64_w64 s fd) (wrote64_w64 s.countDraw fd) h

end

/-- Settles O20: each is a 32-bit write of the integer or of the draw. -/
theorem conversionsToWordResults : Obligations.ConversionsToWordResults := by
  intro s fd fs
  rw [← s.readFS_eq_single]
  exact ⟨setsInteger_of_w32 rfl, setsInteger_of_w32 rfl⟩

/-- Settles O21: each is a 64-bit write of the integer or of the draw. -/
theorem conversionsToLongResults : Obligations.ConversionsToLongResults := by
  intro s fd fs
  rw [← s.readFS_eq_single]
  exact ⟨setsInteger_of_w64 rfl, setsInteger_of_w64 rfl⟩

end Sys2Proof.Machine
end

section
/-! PROOFS. The statements of 41_fp_convert.md on the conversions themselves: what a format represents exactly, and the
float-to-float (R153), integer-to-float (R152) and float-to-integer (R151) conversions. -/

namespace Sys2Proof.Machine

open Claims

variable {w : Nat} {F : FloatFmt w} {a b : BitVec w}

/-! ## What a format represents exactly (R110) -/

/-- The patterns up to the least one with exponent field 2 count units one by one. -/
theorem FloatFmt.units_of_le {n : ℕ} (h : n ≤ 2 ^ F.fracBits * 2) : F.units n = n := by
  induction n with
  | zero => exact F.units_zero
  | succ n ih =>
    have hexp : n / 2 ^ F.fracBits < 2 := (Nat.div_lt_iff_lt_mul (Nat.two_pow_pos _)).mpr (by omega)
    rw [F.units_succ, ih (by omega), Nat.sub_eq_zero_of_le (by omega), pow_zero]

/-- One more in the exponent field of a normal pattern doubles its value. -/
theorem FloatFmt.units_add_two_pow {p : ℕ} (h : 2 ^ F.fracBits ≤ p) :
    F.units (p + 2 ^ F.fracBits) = F.units p * 2 := by
  have hB := Nat.two_pow_pos F.fracBits
  obtain ⟨e, he⟩ := Nat.exists_eq_succ_of_ne_zero (Nat.div_pos h hB).ne'
  simp only [units, Nat.add_div_right p hB, Nat.add_mod_right, he, Nat.succ_ne_zero, if_false, Nat.succ_sub_one]
  rw [pow_succ, Nat.mul_assoc]

/-- A magnitude of up to `fracBits + 1` significant bits is that of a pattern, in range or not. -/
theorem FloatFmt.exists_units_eq {k : ℕ} (hk : k ≤ 2 ^ F.fracBits * 2) (j : ℕ) : ∃ p, F.units p = k * 2 ^ j := by
  induction j with
  | zero => exact ⟨k, by rw [units_of_le hk, pow_zero, Nat.mul_one]⟩
  | succ j ih =>
    obtain ⟨p, hp⟩ := ih
    rw [pow_succ, ← Nat.mul_assoc, ← hp]
    rcases le_or_gt (2 ^ F.fracBits) p with h | h
    · exact ⟨_, units_add_two_pow h⟩
    · exact ⟨p * 2, by rw [units_of_le (by omega), units_of_le (by omega)]⟩

/-- Any magnitude of a pattern has that many significant bits. -/
theorem FloatFmt.absUnits_eq_mul_two_pow (a : BitVec w) :
    ∃ k j, k ≤ 2 ^ F.fracBits * 2 ∧ F.absUnits a = k * 2 ^ j := by
  have hfrac := Nat.mod_lt (F.magPattern a) (Nat.two_pow_pos F.fracBits)
  simp only [absUnits, units]
  split
  · exact ⟨F.magPattern a % 2 ^ F.fracBits, 0, by omega, by simp⟩
  · exact ⟨2 ^ F.fracBits + F.magPattern a % 2 ^ F.fracBits, _, by omega, rfl⟩

/-- A real number that is a finite value of the format. -/
def FloatFmt.Represents (F : FloatFmt w) (x : ℝ) : Prop := ∃ q : BitVec w, F.ieee.Finite q ∧ F.ieee.val q = x

/-- The overflow threshold lies between the greatest finite value and the value that an infinity would have. -/
theorem FloatFmt.Sound.overflow_between (hF : F.Sound) :
    F.units (F.infPattern - 1) < F.overflow ∧ F.overflow < F.units F.infPattern := by
  have hthreshold := hF.threshold
  have hlt : F.units (F.infPattern - 1) < F.units F.infPattern :=
    F.units_strictMono (Nat.sub_lt hF.inf_pos one_pos)
  omega

/-- Below the threshold such a magnitude is one of a finite value. -/
theorem FloatFmt.IsIeee.represents_of_units (hF : F.IsIeee) {x : ℝ} {k j : ℕ} (hk : k ≤ 2 ^ F.fracBits * 2)
    (hx : |x| * 2 ^ F.unitExp = k * 2 ^ j) (hlt : |x| < F.ieee.threshold) : F.Represents x := by
  have hpos : (0 : ℝ) < 2 ^ F.unitExp := by positivity
  obtain ⟨p, hp⟩ := F.exists_units_eq hk j
  have hpx : (F.units p : ℝ) = |x| * 2 ^ F.unitExp := by rw [hp, hx]; push_cast; rfl
  have hp_inf : p < F.infPattern := by
    have hover : (F.units p : ℝ) < F.overflow := by
      rw [hpx, hF.overflow_eq]
      exact mul_lt_mul_of_pos_right hlt hpos
    exact F.units_strictMono.lt_iff_lt.mp ((Nat.cast_lt.mp hover).trans hF.toSound.overflow_between.2)
  have hp_lt := hp_inf.trans hF.inf_lt
  have hmag := magPattern_pack hF.toFits (decide (x < 0)) hp_lt
  have hsign : (F.pack (decide (x < 0)) p).msb = true ↔ x < 0 :=
    (Bool.eq_iff_iff.mp (signOf_pack hF.toFits (decide (x < 0)) hp_lt)).trans decide_eq_true_iff
  refine ⟨_, ieee_Finite_iff_mag.mpr (hmag.symm ▸ hp_inf), ?_⟩
  rw [hF.val_eq_signedVal hsign, hmag, signedVal, hpx, mul_div_cancel_right₀ _ hpos.ne']
  split <;> rename_i h
  · rw [abs_of_neg h, neg_one_mul, neg_neg]
  · rw [abs_of_nonneg (not_lt.mp h), one_mul]

/-- A finite value is below the threshold. -/
theorem FloatFmt.IsIeee.abs_val_lt_threshold (hF : F.IsIeee) (h : F.ieee.Finite a) :
    |F.ieee.val a| < F.ieee.threshold := by
  have hle : F.absUnits a ≤ F.units (F.infPattern - 1) :=
    F.units_strictMono.monotone (Nat.le_sub_one_of_lt (ieee_Finite_iff_mag.mp h))
  have hlt : (F.absUnits a : ℝ) < F.overflow := Nat.cast_lt.mpr (hle.trans_lt hF.toSound.overflow_between.1)
  rwa [hF.abs_val, div_lt_iff₀ (by positivity), ← hF.overflow_eq]

/-- Rounding changes no number that the format represents. -/
theorem FloatFmt.IsIeee.exact_of_roundsTo (hF : F.IsIeee) {x : ℝ} (hx : F.Represents x)
    (h : F.ieee.RoundsTo x b) : F.ieee.Finite b ∧ F.ieee.val b = x := by
  obtain ⟨q, hq, rfl⟩ := hx
  obtain ⟨-, -, hbelow⟩ := h
  obtain ⟨hfin, hnearest, -⟩ := hbelow (hF.abs_val_lt_threshold hq)
  have hdist := hnearest q hq
  rw [sub_self, abs_zero, abs_nonpos_iff, sub_eq_zero] at hdist
  exact ⟨hfin, hdist⟩

theorem FloatFmt.IsIeee.val_of_Zero (hF : F.IsIeee) (h : F.ieee.Zero a) : F.ieee.val a = 0 := by
  rw [hF.val_eq, absUnits_of_Zero h]
  simp

/-! ## Float to float (R153) -/

section
variable {v : Nat} {G : FloatFmt v}

theorem FloatFmt.toFloat_of_NaN (op : FpOp) (h : F.ieee.NaN a) : F.toFloat G op a = G.nan op (operands1 a) := by
  simp [toFloat, (F.ieee_NaN_iff a).mp h]

theorem FloatFmt.toFloat_of_Inf (op : FpOp) (h : F.ieee.Inf a) : F.toFloat G op a = G.inf a.msb := by
  simp [toFloat, signOf, isNaN_eq_false (not_NaN_of_Inf h), ieee_Inf_iff.mp h]

theorem FloatFmt.IsIeee.toFloat_of_Zero (hF : F.IsIeee) (op : FpOp) (h : F.ieee.Zero a) :
    F.toFloat G op a = G.zero a.msb := by
  have hfin := hF.finite_of_Zero h
  simp [toFloat, signOf, isNaN_eq_false (not_NaN_of_Finite hfin), isInf_eq_false (not_Inf_of_Finite hfin),
    ieee_Zero_iff.mp h]

theorem FloatFmt.toFloat_of_Finite (op : FpOp) (h : F.ieee.Finite a) (hz : ¬ F.ieee.Zero a) :
    F.toFloat G op a = G.round a.msb (.ratio (F.absUnits a * 2 ^ G.unitExp) (2 ^ F.unitExp)) := by
  simp [toFloat, signOf, isNaN_eq_false (not_NaN_of_Finite h), isInf_eq_false (not_Inf_of_Finite h),
    isZero_eq_false hz]

/-- The sign of a nonzero pattern is that of its value. -/
theorem FloatFmt.IsIeee.msb_iff_val_neg (hF : F.IsIeee) (h : ¬ F.ieee.Zero a) : a.msb = true ↔ F.ieee.val a < 0 := by
  rcases hF.val_sign h with ⟨hs, hv⟩ | ⟨hs, hv⟩
  · simp [hs, hv]
  · simp [hs, hv.le]

/-- The exact value, in units of the destination, is rounded once. -/
theorem FloatFmt.IsIeee.roundsTo_toFloat (hF : F.IsIeee) (hG : G.IsIeee) (op : FpOp) (h : F.ieee.Finite a)
    (hz : ¬ F.ieee.Zero a) : G.ieee.RoundsTo (F.ieee.val a) (F.toFloat G op a) := by
  rw [toFloat_of_Finite op h hz]
  refine hG.roundsTo_round (hF.msb_iff_val_neg hz) (Nat.two_pow_pos _) ?_
  rw [Exact.toReal, hF.abs_val]
  push_cast
  ring

/-- A destination with at least the precision, the exponents and the range of the source represents every value. -/
theorem FloatFmt.IsIeee.represents_val (hF : F.IsIeee) (hG : G.IsIeee) (hfrac : F.fracBits ≤ G.fracBits)
    (hunit : F.unitExp ≤ G.unitExp) (hthreshold : F.ieee.threshold ≤ G.ieee.threshold) (h : F.ieee.Finite a) :
    G.Represents (F.ieee.val a) := by
  obtain ⟨k, j, hk, hunits⟩ := F.absUnits_eq_mul_two_pow a
  have hprec : 2 ^ F.fracBits ≤ 2 ^ G.fracBits := Nat.pow_le_pow_right two_pos hfrac
  refine hG.represents_of_units (k := k) (j := j + (G.unitExp - F.unitExp)) (by omega) ?_
    ((hF.abs_val_lt_threshold h).trans_le hthreshold)
  have hsplit : (2 : ℝ) ^ G.unitExp = 2 ^ F.unitExp * 2 ^ (G.unitExp - F.unitExp) := by
    rw [← pow_add, Nat.add_sub_cancel' hunit]
  rw [hF.abs_val, hunits, hsplit]
  push_cast
  field_simp
  ring

/-- Where the destination represents the value of a finite pattern, the conversion is exact. -/
theorem FloatFmt.IsIeee.toFloat_exact (hF : F.IsIeee) (hG : G.IsIeee) (op : FpOp) (h : F.ieee.Finite a)
    (hx : G.Represents (F.ieee.val a)) :
    G.ieee.Finite (F.toFloat G op a) ∧ G.ieee.val (F.toFloat G op a) = F.ieee.val a := by
  by_cases hz : F.ieee.Zero a
  · obtain ⟨hzero, -⟩ := hG.zeroOf_zero a.msb
    rw [hF.toFloat_of_Zero op hz, hF.val_of_Zero hz]
    exact ⟨hG.finite_of_Zero hzero, hG.val_of_Zero hzero⟩
  · exact hG.exact_of_roundsTo hx (hF.roundsTo_toFloat hG op h hz)

end

/-- Doubles have the greater range. -/
theorem threshold_binary32_le_binary64 : binary32.threshold ≤ binary64.threshold := by
  have h32 : binary32.threshold = 2 ^ 128 - 2 ^ 103 := rfl
  have h64 : binary64.threshold = 2 ^ 1024 - 2 ^ 970 := rfl
  have hgap : (2 : ℝ) ^ 970 + 2 ^ 970 ≤ 2 ^ 1024 := by
    rw [← mul_two, ← pow_succ]
    exact pow_le_pow_right₀ one_le_two (by norm_num)
  rw [h32, h64]
  calc (2 : ℝ) ^ 128 - 2 ^ 103 ≤ 2 ^ 128 := sub_le_self _ (by positivity)
    _ ≤ 2 ^ 970 := pow_le_pow_right₀ one_le_two (by norm_num)
    _ ≤ 2 ^ 1024 - 2 ^ 970 := le_sub_iff_add_le.mpr hgap

/-- Settles O28: the conversion rounds once, and a double represents every single. -/
theorem floatToFloatConversions : Obligations.FloatToFloatConversions := by
  have hS := fmtS_isIeee
  have hD := fmtD_isIeee
  refine ⟨fun a => ⟨fun h => ?_, fun h => ?_, fun h => ?_, fun h => ?_⟩,
    fun a => ⟨fun h => ?_, fun h => ?_, fun h => ?_, fun h hz => ?_⟩⟩
  · exact FloatFmt.toFloat_of_NaN (F := fmtS) .cvtDS h
  · exact FloatFmt.toFloat_of_Inf (F := fmtS) .cvtDS h ▸ hD.infOf_inf _
  · exact hS.toFloat_of_Zero .cvtDS h ▸ hD.zeroOf_zero _
  · have hx := hS.represents_val hD (by decide) (by decide) threshold_binary32_le_binary64 h
    exact hS.toFloat_exact hD .cvtDS h hx
  · rw [FloatFmt.toFloat_of_NaN (F := fmtD) .cvtSD h, operands1, BitVec.setWidth_eq]
    rfl
  · exact FloatFmt.toFloat_of_Inf (F := fmtD) .cvtSD h ▸ hS.infOf_inf _
  · exact hD.toFloat_of_Zero .cvtSD h ▸ hS.zeroOf_zero _
  · exact hD.roundsTo_toFloat hS .cvtSD h hz

/-! ## Integer to float (R152) -/

theorem FloatFmt.ofInteger_zero : F.ofInteger 0 = 0 := by
  simp [ofInteger, zero, pack]

/-- A nonzero integer is rounded once. -/
theorem FloatFmt.IsIeee.roundsTo_ofInteger (hF : F.IsIeee) {n : ℤ} (hn : n ≠ 0) :
    F.ieee.RoundsTo n (F.ofInteger n) := by
  rw [ofInteger, if_neg hn]
  refine hF.roundsTo_round (by simp) one_pos ?_
  rw [Exact.toReal]
  push_cast [Nat.cast_natAbs]
  rw [div_one]

theorem FloatFmt.ieee_Zero_zero : F.ieee.Zero (0 : BitVec w) := by
  rw [ieee_Zero_iff_mag, magPattern]
  simp

/-- A representable integer is converted exactly. -/
theorem FloatFmt.IsIeee.val_ofInteger (hF : F.IsIeee) {n : ℤ} (h : F.Represents n) :
    F.ieee.val (F.ofInteger n) = n := by
  by_cases hn : n = 0
  · rw [hn, ofInteger_zero, hF.val_of_Zero ieee_Zero_zero, Int.cast_zero]
  · exact (hF.exact_of_roundsTo h (hF.roundsTo_ofInteger hn)).2

/-- R152, for integers below the overflow threshold. -/
theorem FloatFmt.IsIeee.intRule_ofInteger (hF : F.IsIeee) {n : ℤ} (hlt : |(n : ℝ)| < F.ieee.threshold) :
    IntRule F.ieee F.ofInteger n := by
  refine ⟨?_, hF.roundsTo_ofInteger, hF.val_ofInteger, ?_⟩
  · rintro rfl
    exact ofInteger_zero
  · by_cases hn : n = 0
    · rw [hn, ofInteger_zero]
      exact hF.finite_of_Zero ieee_Zero_zero
    · obtain ⟨-, -, hbelow⟩ := hF.roundsTo_ofInteger hn
      exact (hbelow hlt).1

/-- An integer of up to `fracBits + 1` significant bits is converted exactly. -/
theorem FloatFmt.IsIeee.val_ofInteger_eq_self (hF : F.IsIeee) {n : ℤ} {k j : ℕ} (hk : k ≤ 2 ^ F.fracBits * 2)
    (hn : n.natAbs = k * 2 ^ j) (hlt : |(n : ℝ)| < F.ieee.threshold) : F.ieee.val (F.ofInteger n) = n := by
  refine hF.val_ofInteger (hF.represents_of_units hk (j := j + F.unitExp) ?_ hlt)
  rw [← Int.cast_abs, ← Nat.cast_natAbs, hn]
  push_cast
  ring

/-- One of at most `fracBits + 1` bits, in particular. -/
theorem FloatFmt.IsIeee.val_ofInteger_of_natAbs_le (hF : F.IsIeee) {n : ℤ} (hn : n.natAbs ≤ 2 ^ F.fracBits * 2)
    (hlt : |(n : ℝ)| < F.ieee.threshold) : F.ieee.val (F.ofInteger n) = n :=
  hF.val_ofInteger_eq_self (j := 0) hn (Nat.mul_one _).symm hlt

/-- A power of two below the threshold is its own value, and so the value of whatever is rounded to the same pattern. -/
theorem FloatFmt.IsIeee.val_ofInteger_eq_two_pow (hF : F.IsIeee) {n : ℤ} {j : ℕ}
    (hn : F.ofInteger n = F.ofInteger (2 ^ j)) (hlt : |((2 ^ j : ℤ) : ℝ)| < F.ieee.threshold) :
    F.ieee.val (F.ofInteger n) = 2 ^ j := by
  have hone : 1 ≤ 2 ^ F.fracBits * 2 := Nat.mul_pos (Nat.two_pow_pos _) two_pos
  rw [hn, hF.val_ofInteger_eq_self (j := j) hone (by simp [Int.natAbs_pow]) hlt]
  push_cast
  rfl

/-- 64-bit integers are below the thresholds of both formats. -/
theorem abs_int_lt_threshold {n : ℤ} (h : |n| ≤ 2 ^ 63) :
    |(n : ℝ)| < fmtS.ieee.threshold ∧ |(n : ℝ)| < fmtD.ieee.threshold := by
  have h32 : (2 : ℝ) ^ 63 < binary32.threshold := by norm_num [binary32, Ieee.threshold, Ieee.bias]
  have hlt : |(n : ℝ)| < binary32.threshold := lt_of_le_of_lt (by exact_mod_cast h) h32
  exact ⟨hlt, hlt.trans_le threshold_binary32_le_binary64⟩

/-- Settles O29: an integer below the threshold is rounded to a finite value, one of few enough bits is exact, and
`2^63 - 1` is rounded to the pattern of `2^63`. -/
theorem integerToFloatConversions : Obligations.IntegerToFloatConversions := by
  have hS := fmtS_isIeee
  have hD := fmtD_isIeee
  have hS_bits : 2 ^ fmtS.fracBits * 2 = 2 ^ 24 := rfl
  have hD_bits : 2 ^ fmtD.fracBits * 2 = 2 ^ 53 := rfl
  refine ⟨fun n hlo hhi => ?_, fun n hlo hhi => ?_, fun n hn => ?_, ?_, ?_⟩
  · obtain ⟨hltS, hltD⟩ := abs_int_lt_threshold (abs_le.mpr ⟨hlo, hhi.le⟩)
    exact ⟨hS.intRule_ofInteger hltS, hD.intRule_ofInteger hltD⟩
  · obtain ⟨-, hltD⟩ := abs_int_lt_threshold (n := n) (abs_le.mpr (by omega))
    exact hD.val_ofInteger_of_natAbs_le (by omega) hltD
  · obtain ⟨hltS, -⟩ := abs_int_lt_threshold (hn.trans (by decide))
    rw [Int.abs_eq_natAbs] at hn
    exact hS.val_ofInteger_of_natAbs_le (by omega) hltS
  · exact hS.val_ofInteger_eq_two_pow (by decide +kernel) (abs_int_lt_threshold (by decide)).1
  · exact hD.val_ofInteger_eq_two_pow (by decide +kernel) (abs_int_lt_threshold (by decide)).2

/-! ## Float to integer (R151) -/

/-- Truncation toward zero of a nonnegative number and of its negation. -/
theorem trunc_of_nonneg {x : ℝ} (h : 0 ≤ x) : trunc x = ⌊x⌋ := if_pos h

theorem trunc_neg_of_nonneg {x : ℝ} (h : 0 ≤ x) : trunc (-x) = -⌊x⌋ := by
  rcases h.eq_or_lt with rfl | hpos
  · simp [trunc]
  · rw [trunc, if_neg (by linarith), Int.ceil_neg]

/-- The model's truncation is that of the real value. -/
theorem FloatFmt.IsIeee.truncate_eq_trunc (hF : F.IsIeee) (a : BitVec w) : F.truncate a = trunc (F.ieee.val a) := by
  have hnonneg : (0 : ℝ) ≤ F.absUnits a / 2 ^ F.unitExp := by positivity
  have hfloor : ⌊(F.absUnits a / 2 ^ F.unitExp : ℝ)⌋ = (F.absUnits a / 2 ^ F.unitExp : ℕ) := by
    rw [← Int.natCast_floor_eq_floor hnonneg, ← Nat.floor_div_eq_div (K := ℝ)]
    push_cast
    rfl
  rw [hF.val_eq, truncate, signOf]
  cases a.msb with
  | true => simp only [if_true, neg_one_mul, trunc_neg_of_nonneg hnonneg, hfloor]
  | false => simp only [Bool.false_eq_true, if_false, one_mul, trunc_of_nonneg hnonneg, hfloor]

theorem FloatFmt.toInteger_of_NaN_or_Inf (N : ℕ) (h : F.ieee.NaN a ∨ F.ieee.Inf a) : F.toInteger N a = none := by
  rw [F.ieee_NaN_iff, ieee_Inf_iff, ← Bool.or_eq_true] at h
  rw [toInteger, if_pos h]

theorem FloatFmt.toInteger_of_Finite (N : ℕ) (h : F.ieee.Finite a) :
    F.toInteger N a =
      if -(2 ^ (N - 1) : ℤ) ≤ F.truncate a ∧ F.truncate a ≤ 2 ^ (N - 1) - 1 then some (.ofInt N (F.truncate a))
      else none := by
  simp [toInteger, isNaN_eq_false (not_NaN_of_Finite h), isInf_eq_false (not_Inf_of_Finite h)]

theorem FloatFmt.IsIeee.truncRule_toInteger (hF : F.IsIeee) {N : ℕ} (hN : 0 < N) :
    TruncRule F.ieee N (F.toInteger N) := by
  intro a
  rw [← hF.truncate_eq_trunc]
  refine ⟨fun h hlo hhi => ?_, toInteger_of_NaN_or_Inf N, fun h hout => ?_⟩ <;> rw [toInteger_of_Finite N h]
  · exact ⟨_, if_pos ⟨hlo, hhi⟩, BitVec.toInt_ofInt_eq_self hN hlo (by omega)⟩
  · exact if_neg (by omega)

/-- Settles O30: a quotient of naturals is the floor of the real quotient, and the range is tested as R151 says. -/
theorem floatToIntegerTruncates : Obligations.FloatToIntegerTruncates :=
  ⟨fmtS_isIeee.truncRule_toInteger (by decide), fmtD_isIeee.truncRule_toInteger (by decide),
    fmtS_isIeee.truncRule_toInteger (by decide), fmtD_isIeee.truncRule_toInteger (by decide)⟩

end Sys2Proof.Machine
end

section
/-! PROOFS. The statements of 60_exceptions.md: what an undefined entry does (R190), which events a transaction
emits (R195), and that nothing reads them (R194). The last two are one fact: a transaction appends the events that
its inputs and `PC_WIDTH` give it, to any output, and does the same to all else. -/

namespace Sys2Proof.Machine

open Claims

/-! ## Undefined entries (R190) -/

/-- The reported address is 4 below `pc_in`, modulo `2^PC_WIDTH` (R8). -/
theorem diagAddress_add_four (p : Params) (pcIn : Nat) :
    (diagAddress p pcIn + 4) % 2 ^ p.pcWidth = pcIn % 2 ^ p.pcWidth := by
  have hpos : (0 : Int) < ((2 ^ p.pcWidth : Nat) : Int) := by positivity
  apply Int.natCast_inj.mp
  rw [Int.natCast_emod, Int.natCast_add, diagAddress, Int.toNat_of_nonneg (Int.emod_nonneg _ hpos.ne'),
    Int.emod_add_emod, Nat.cast_ofNat, Int.sub_add_cancel, Int.natCast_emod]

/-- The entries with no instruction are those not listed (R90). -/
theorem unitDecode_eq_none_iff {fmt : Fmt} {w : Word32} : unitDecode fmt w = none ↔ ¬ Defined fmt w := by
  rw [← definedEntriesAreTheListedOnes, ← Option.ne_none_iff_exists', not_not]

/-- Settles O9: the step is the unknown-opcode handler, with the address of `diagAddress`. -/
theorem unknownOpcodeOnlyReports : Obligations.UnknownOpcodeOnlyReports :=
  fun s _ _ pcIn _ hq hdef =>
    ⟨diagAddress s.params pcIn, diagAddress_lt s.params pcIn, diagAddress_add_four s.params pcIn, rfl,
      (step_cons hq).trans (transact_execute_none (unitDecode_eq_none_iff.mpr hdef) _ _)⟩

/-! ## The events of a transaction (R194, R195) -/

/-- The events that a transaction emits, by its inputs and the parameters alone. -/
def emitted (p : Params) : Transaction → List Diag
  | .execute fmt w pcIn => if (unitDecode fmt w).isSome then [] else [.unknownOpcode w (diagAddress p pcIn)]
  | .readCtl c => if c = statusIndex then [] else [.invalidControlRead c]
  | .writeCtl c v =>
    if c = statusIndex then if statusReported v then [.unimplementedStatusBits v] else []
    else [.invalidControlWrite c v]
  | .read32 _ | .write32 _ _ | .read64 _ | .write64 _ _ | .setAddressingMode _ | .reset => []

theorem emitted_execute_some {p : Params} {fmt : Fmt} {w : Word32} {i : Instr} {pcIn : Nat}
    (h : unitDecode fmt w = some i) : emitted p (.execute fmt w pcIn) = [] := by
  rw [emitted, h, Option.isSome_some, if_pos rfl]

theorem emitted_execute_none {p : Params} {fmt : Fmt} {w : Word32} {pcIn : Nat} (h : unitDecode fmt w = none) :
    emitted p (.execute fmt w pcIn) = [.unknownOpcode w (diagAddress p pcIn)] := by
  rw [emitted, h, Option.isSome_none, if_neg Bool.false_ne_true]

/-- They are at most one. -/
theorem length_emitted_le_one (p : Params) (tr : Transaction) : (emitted p tr).length ≤ 1 := by
  cases tr with
  | execute | readCtl => rw [emitted]; split <;> simp
  | writeCtl => rw [emitted]; split_ifs <;> simp
  | read32 | write32 | read64 | write64 | setAddressingMode | reset => exact Nat.zero_le 1

/-- They are those of R195. -/
theorem expectedDiags_emitted (s : State) (tr : Transaction) : expectedDiags s tr (emitted s.params tr) := by
  cases tr with
  | execute fmt w pcIn =>
    constructor
    · intro hdef
      obtain ⟨i, hi⟩ := (definedEntriesAreTheListedOnes fmt w).mpr hdef
      exact emitted_execute_some hi
    · intro hdef
      exact ⟨diagAddress s.params pcIn, emitted_execute_none (unitDecode_eq_none_iff.mpr hdef),
        diagAddress_lt s.params pcIn, diagAddress_add_four s.params pcIn⟩
  | readCtl c => rfl
  | writeCtl c v => simp [expectedDiags, emitted, statusIndex, statusReported, statusUnimplMask]
  | read32 | write32 | read64 | write64 | setAddressingMode | reset => rfl

/-- The diagnostic output, replaced. -/
def State.setDiags (s : State) (ds : List Diag) : State := { s with diags := ds }

/-- An instruction neither reads nor writes the output. -/
theorem apartFromMode_setDiags (ds : List Diag) : ApartFromMode (·.setDiags ds) :=
  ⟨⟨fun _ _ => rfl, fun _ => rfl, fun _ _ _ => rfl, fun _ => rfl⟩, fun _ => rfl, fun _ => rfl⟩

/-- On any output a transaction does the same, and appends the same events. -/
theorem transact_setDiags {tr : Transaction} {s t : State} (h : transact tr s = .next t) (ds : List Diag) :
    transact tr (s.setDiags ds) = .next (t.setDiags (ds ++ emitted s.params tr)) := by
  cases tr with
  | execute fmt w pcIn =>
    cases hd : unitDecode fmt w with
    | some i =>
      obtain ⟨t', ht, hds⟩ := exec_apartFromMode (apartFromMode_setDiags ds) i s
      cases ((transact_execute_some hd pcIn s).trans ht).symm.trans h
      rw [emitted_execute_some hd, List.append_nil]
      exact (transact_execute_some hd pcIn _).trans hds
    | none =>
      cases (transact_execute_none hd pcIn s).symm.trans h
      rw [emitted_execute_none hd]
      exact transact_execute_none hd pcIn (s.setDiags ds)
  | readCtl c =>
    cases h
    rw [emitted, transact, doReadCtl, doReadCtl, State.readCtl, State.readCtl]
    split_ifs
    · rw [List.append_nil]; rfl
    · rfl
  | writeCtl c v =>
    cases h
    rw [emitted, transact, State.writeCtl, State.writeCtl]
    split_ifs
    · rfl
    · rw [List.append_nil]; rfl
    · rfl
  | read32 | write32 | read64 | write64 | setAddressingMode | reset =>
    cases h
    rw [emitted, List.append_nil]
    rfl

/-- So a transaction appends exactly these events to its own output. -/
theorem transact_diags {tr : Transaction} {s t : State} (h : transact tr s = .next t) :
    t.diags = s.diags ++ emitted s.params tr := by
  have hsame : t = t.setDiags (s.diags ++ emitted s.params tr) :=
    Host.Outcome.next.inj (h.symm.trans (transact_setDiags h s.diags))
  exact congrArg State.diags hsame

/-- Settles O44: the step is the transaction, and its events are those of R195. -/
theorem diagnosticsPerTransaction : Obligations.DiagnosticsPerTransaction := by
  intro s t tr rest hq h
  have htr : transact tr (s.setInputs rest) = .next t := (step_cons hq).symm.trans h
  exact ⟨emitted s.params tr, transact_diags (s := s.setInputs rest) htr,
    length_emitted_le_one s.params tr, expectedDiags_emitted s tr⟩

/-- Settles O45: an idle step appends nothing, and a transaction the same events to any output. -/
theorem diagnosticsAreNeverRead : Obligations.DiagnosticsAreNeverRead := by
  intro s ds
  obtain ⟨t, ht, -⟩ := everyStepCompletes s
  rcases step_cases ht with ⟨hq, rfl⟩ | ⟨tr, rest, hq, htr⟩
  · refine ⟨t, [], ht, t.diags.append_nil.symm, ?_⟩
    rw [List.append_nil]
    exact step_nil hq
  · exact ⟨t, emitted s.params tr, ht, transact_diags (s := s.setInputs rest) htr,
      (step_cons (s := s.setDiags ds) hq).trans (transact_setDiags htr ds)⟩

end Sys2Proof.Machine
end

section
/-! PROOFS. The statements of 70_reset_and_hazards.md: reset zeroes the unit (R220-R222), its state meets the
invariant, and a destination that overlaps a source is written after the source is read (R225). -/

namespace Sys2Proof.Machine

/-! ## Reset (R220-R222) -/

/-- A half of a zero slot is zero. -/
theorem State.readHalf_eq_zero {s : State} (hs : ∀ i, s.slot i = 0) (a : RegIx × Bool) : s.readHalf a = 0 := by
  rw [State.readHalf, hs]
  cases a.2 <;> rfl

/-- Where every slot is zero, every read by every view gives zero. -/
theorem State.reads_eq_zero {s : State} (hs : ∀ i, s.slot i = 0) (i : RegIx) :
    s.r32 i = 0 ∧ s.r64 i = 0 ∧ s.readFS i = 0 ∧ s.readFD i = 0 :=
  ⟨State.readHalf_eq_zero hs _, hs i, State.readHalf_eq_zero hs _, hs i⟩

/-- Settles O2: the step is `resetUnit`, which leaves every slot zero and the interface as it was. -/
theorem resetTransactionZeroesTheUnit : Obligations.ResetTransactionZeroesTheUnit := by
  intro s rest hq
  have hzero : ∀ i, (s.setInputs rest).resetUnit.slot i = 0 := State.slot_resetUnit _
  refine ⟨_, step_cons hq, hzero, rfl, rfl, fun m i => ?_, rfl, rfl, rfl, rfl, rfl⟩
  exact State.reads_eq_zero (s := (s.setInputs rest).resetUnit.setMode m) hzero i

/-- Settles O1: every slot of the reset state is zero, and so is what the views read of them. -/
theorem resetStateReadsZero : Obligations.ResetStateReadsZero :=
  ⟨State.slot_reset, rfl, rfl, fun m i => State.reads_eq_zero (s := State.reset.setMode m) State.slot_reset i⟩

/-- Settles O47: the status register is zero and the diagnostic output empty. -/
theorem invariantHoldsAtReset : Obligations.InvariantHoldsAtReset :=
  ⟨BitVec.zero_and, List.forall_mem_nil _⟩

/-! ## Overlapping operands (R225) -/

section
variable {s : State} (hs : s.full = false) (hmd : s.params.singleView = .modeDependent)
  {k : RegIx} (hk : k.toNat % 2 = 0)
include hs hmd hk

/-- In Half mode under `ModeDependent` the two singles of a pair lie in the halves of its even slot (R33). -/
theorem State.singleAddr_pair : s.singleAddr k = (k, false) ∧ s.singleAddr (k + 1) = (k, true) := by
  rw [State.singleAddr_eq_addr32 (.inl hmd), State.singleAddr_eq_addr32 (.inl hmd), hs]
  exact addr32_pair k hk

theorem State.readFS_even : s.readFS k = loHalf (s.slot k) := by
  rw [State.readFS, (State.singleAddr_pair hs hmd hk).1]
  rfl

theorem State.readFS_succ_of_even : s.readFS (k + 1) = hiHalf (s.slot k) := by
  rw [State.readFS, (State.singleAddr_pair hs hmd hk).2]
  rfl

/-- A single write to the odd register of a pair replaces the high half of the even slot. -/
theorem State.slot_writeFS_succ_of_even (b : Word32) :
    (s.writeFS (k + 1) b).slot k = joinHalves b (loHalf (s.slot k)) := by
  rw [State.writeFS, (State.singleAddr_pair hs hmd hk).2, State.slot_writeHalf, if_pos rfl, if_pos rfl]

end

/-- Settles O22: each result is of the halves of slot `k` as they were, and is then written over one or both. -/
theorem overlappingOperandsAreReadFirst : Obligations.OverlappingOperandsAreReadFirst := by
  intro s k hs hmd hk
  have hodd_write := State.slot_writeFS_succ_of_even hs hmd hk
  have hlo := State.readFS_even hs hmd hk
  have hhi := State.readFS_succ_of_even hs hmd hk
  refine ⟨⟨_, rfl, hodd_write _⟩, ⟨_, rfl, ?_⟩, ⟨_, rfl, ?_⟩⟩
  · calc (s.writeFD k (fmtS.toFloat fmtD .cvtDS (s.readFS (k + 1)))).slot k
        = fmtS.toFloat fmtD .cvtDS (s.readFS (k + 1)) := s.r64_w64_same k _
      _ = fmtS.toFloat fmtD .cvtDS (hiHalf (s.slot k)) := by rw [hhi]
  · calc (s.binaryS (fmtS.fadd .addS) (k + 1) (k + 1) k).slot k
        = joinHalves (fmtS.fadd .addS (s.readFS (k + 1)) (s.readFS k)) (loHalf (s.slot k)) := hodd_write _
      _ = joinHalves (fmtS.fadd .addS (hiHalf (s.slot k)) (loHalf (s.slot k))) (loHalf (s.slot k)) := by
        rw [hhi, hlo]

end Sys2Proof.Machine
end
